-- ==== Sys2Proof/Word.lean ====
section
/-! DEFINITION. Words, bytes and register indices: the plain types every other file is written over. -/

namespace Sys2Proof

/-- A 32-bit word: a register value, an address, a PC value or an instruction word (R9, R14). -/
abbrev Word := BitVec 32

/-- One byte of memory (R117). -/
abbrev Byte := BitVec 8

/-- The index of a general register, 0 to 31 (R9, R100). -/
abbrev RegIdx := Fin 32

end Sys2Proof
end

