-- ==== Sys2Proof/Config.lean ====
section
/-! DEFINITION. The parameters of a CORE (R11, R12) as one record of plain data, what makes such a record legal,
and the free values: constants with no body, for what the spec leaves open. -/

namespace Sys2Proof

/-- The parameters R11 names without a value and R12 names with a default. A CORE is built with one such record and
never changes it. The model carries it in its state, so that a statement about every state is a statement about every
value of every parameter, as R11 asks. `MEM_SIZE` is the length of the memory and stands there (R10). -/
structure Config where
  /-- `ENTRY_PC`, the default initial PC (R11, R1103). -/
  entryPc : Word
  /-- `STACK_TOP`, the default initial x2 (R11). -/
  stackTop : Word
  /-- `HEAP_START`, what sbrk answers to a query (R11, R860). -/
  heapStart : Word
  /-- `READ_STR_MAX`, the most bytes a read-string call may write (R11, R864). -/
  readStrMax : Nat
  /-- `SYS_SBRK` (R852). -/
  sysSbrk : Word
  /-- `SYS_READ_WORD` (R852). -/
  sysReadWord : Word
  /-- `SYS_READ_STRING` (R852). -/
  sysReadString : Word
  /-- `SYS_WRITE_WORD` (R852). -/
  sysWriteWord : Word
  /-- `SYS_WRITE_STRING` (R852). -/
  sysWriteString : Word
  /-- `SYS_WRITE_WORD_ERR` (R852). -/
  sysWriteWordErr : Word
  /-- `SYS_WRITE_STRING_ERR` (R852). -/
  sysWriteStringErr : Word
  /-- `SYS_EXIT` (R852). -/
  sysExit : Word
  /-- `INIT_REGS`, the values of x1 and x3 to x31 after construction (R11, R1102); entries 0 and 2 are never used. -/
  initRegs : Vector Word 32
  /-- `FENCE_WORD`, the one word that is FENCE (R12, R337). -/
  fenceWord : Word
  /-- `FENCE_I_WORD`, the one word that is FENCE.I (R12, R337). -/
  fenceIWord : Word
  /-- `JAL_CLEARS_BIT0`, whether JAL clears bit 0 of its target (R12, R761). -/
  jalClearsBit0 : Bool
  deriving DecidableEq, Repr

/-- The eight selector values, in the order of R852. -/
def Config.selectors (c : Config) : List Word :=
  [c.sysSbrk, c.sysReadWord, c.sysReadString, c.sysWriteWord, c.sysWriteString, c.sysWriteWordErr,
   c.sysWriteStringErr, c.sysExit]

/-- The constraints the spec puts on the parameters: the selectors are pairwise distinct (R11, R852), and the two fence
words are two words of the MISC-MEM group (R337). -/
abbrev Config.wf (c : Config) : Prop :=
  c.selectors.Nodup ∧ c.fenceWord.setWidth 7 = 0b0001111#7 ∧ c.fenceIWord.setWidth 7 = 0b0001111#7 ∧
    c.fenceWord ≠ c.fenceIWord

/-- One answer of the host's input oracle: the stream failed, or it gave a value (R871, R872). -/
inductive Answer (α : Type) where
  | fail
  | ok (a : α)
  deriving DecidableEq, Repr, Inhabited

/-- FREE VALUE. What the input oracle answers to the n-th read-word call for which the state holds no answer (R870,
R871): any answer at all. -/
opaque Config.freeInputWord : Nat → Answer Word

/-- FREE VALUE. What the input oracle answers to the n-th read-string call for which the state holds no answer (R870,
R872): any byte string, of which at most `READ_STR_MAX` bytes are taken, or a failure. -/
opaque Config.freeInputLine : Nat → Answer (List Byte)

/-- FREE VALUE. What the bit-mask utility answers when its left bound lies below its right bound (R20): the spec gives no
value there, and nothing of the CORE asks for one. -/
opaque Config.freeMask : (width left right : Nat) → BitVec width

/-- FREE VALUE. What the bit-extract utility answers for bounds that name no field of the word: its left bound below its
right bound, where the spec allows any value (U1), or its left bound not below the width, where the spec states none (R13;
log entry 14). Nothing of the CORE asks for one. -/
opaque Config.freeExtract : (width : Nat) → BitVec width → (left right : Nat) → BitVec width

end Sys2Proof
end

