-- ==== Sys2Proof/Machine/Bits.lean ====
section
/-! DEFINITION. Bit fields, sign extension and byte order: the helpers the decoder and the machine share. -/

namespace Sys2Proof

/-- `sext_N(v)`: the low N bits of v, extended to 32 bits with copies of bit N-1 (R15). -/
def sext (n : Nat) (v : Word) : Word := (v.setWidth n).signExtend 32

/-- `zext_N(v)`: the low N bits of v, extended to 32 bits with zeros (R15). -/
def zext (n : Nat) (v : Word) : Word := (v.setWidth n).setWidth 32

/-- A field put at a bit position of a word, the rest 0. Concatenation is the `|||` of fields at their positions (R13). -/
def place {n : Nat} (at_ : Nat) (field : BitVec n) : Word := field.setWidth 32 <<< at_

/-- `bit_mask(word_width, left, right)`: bits left down to right set, all others 0; 0 if a bound is not below the width;
a free value if left lies below right (R20). -/
def bitMask (width left right : Nat) : BitVec width :=
  if width ≤ left ∨ width ≤ right then 0
  else if left < right then Config.freeMask width left right
  else BitVec.ofNat width (2 ^ (left - right + 1) - 1) <<< right

/-- `bit_extract(v, width, left, right)`: the bits left down to right of v, moved down to bit 0 (R13); a free value where
the bounds name no field of v: left below right (U1), or left not below the width. DEDUCED, log entry 14: R20 states the
clamp to 0 for the mask alone, so none is assumed here. -/
def bitExtract (width : Nat) (v : BitVec width) (left right : Nat) : BitVec width :=
  if right ≤ left ∧ left < width then (v &&& bitMask width left right) >>> right
  else Config.freeExtract width v left right

/-- The low n bytes of a word, the least significant first (R204, R208). -/
def leBytes : Nat → Word → List Byte
  | 0, _ => []
  | n + 1, v => v.setWidth 8 :: leBytes n (v >>> 8)

/-- The word whose bytes these are, the first the least significant: the sum of byte k times 256 to the k (R202, R208). -/
def leWord : List Byte → Word
  | [] => 0
  | b :: bs => b.setWidth 32 + leWord bs <<< 8

end Sys2Proof
end

