-- ==== Sys2Proof/Machine/Defaults.lean ====
section
/-! DEFINITION. The values `State.reset` is built with where the spec names a parameter and gives it no value. Every one
is a choice of the model, named in the assumption log; no statement about the machine rests on them. -/

namespace Sys2Proof

/-- The parameters of `State.reset`. DESIGN CHOICE for the values R11 leaves open (log entry 1): the selector numbers,
`HEAP_START` and `READ_STR_MAX` are those that 95_test_vectors.md section 2.0 picks for its own vectors; `ENTRY_PC`,
`STACK_TOP` and `INIT_REGS` are zero. The last three fields are the spec's own defaults (R12). -/
def defaultConfig : Config where
  entryPc := 0
  stackTop := 0
  heapStart := 0x00010000
  readStrMax := 16
  sysSbrk := 9
  sysReadWord := 5
  sysReadString := 8
  sysWriteWord := 1
  sysWriteString := 4
  sysWriteWordErr := 11
  sysWriteStringErr := 12
  sysExit := 10
  initRegs := Vector.replicate 32 0
  fenceWord := 0x0FF0000F
  fenceIWord := 0x0000100F
  jalClearsBit0 := false

/-- `MEM_SIZE` of `State.reset`. DESIGN CHOICE (log entry 2): the largest size R10 allows, so that the whole 32-bit
address space is memory. -/
def defaultMemSize : Nat := 2 ^ 32

/-- What a byte of memory that the state does not list holds. DESIGN CHOICE (log entry 3). -/
def unlistedByte : Byte := 0

end Sys2Proof
end

