-- ==== Sys2Proof/Syntax.lean ====
section
/-! DEFINITION. What the decoder produces: the dispatch categories, mnemonics and immediate formats, the decoded record
of R341, and the instructions of the opcode table as data. -/

namespace Sys2Proof

/-- The dispatch category the executor selects by first (R340). -/
inductive Category where
  | registerRegister | immediate | load | store | branch | upperImmediate | jump | fence | system | illegal
  deriving DecidableEq, Repr

/-- How an instruction's immediate is laid out (R326); `none` is the illegal record's. -/
inductive Format where
  | r | i | s | b | u | j | none
  deriving DecidableEq, Repr

/-- The 47 mnemonics of the opcode table and the illegal sentinel (R341). -/
inductive Mnemonic where
  | add | sub | sll | slt | sltu | xor | srl | sra | or | and
  | addi | slti | sltiu | xori | ori | andi | slli | srli | srai
  | lb | lh | lw | lbu | lhu
  | sb | sh | sw
  | beq | bne | blt | bge | bltu | bgeu
  | lui | auipc
  | jal | jalr
  | fence | fenceI
  | ecall | ebreak | csrrw | csrrs | csrrc | csrrwi | csrrsi | csrrci
  | illegal
  deriving DecidableEq, Repr

/-- The decoded record (R341): the raw word, the six fixed fields, the sign-extended immediate of the word's format, the
dispatch category and the mnemonic. -/
structure Record where
  raw : Word
  group : BitVec 7
  funct3 : BitVec 3
  funct7 : BitVec 7
  rd : RegIdx
  rs1 : RegIdx
  rs2 : RegIdx
  imm : Word
  category : Category
  mnemonic : Mnemonic
  deriving DecidableEq, Repr

/-- The instructions, one constructor for each row of the opcode table. An immediate is the 32-bit word the executor
reads (R321, R323): already sign-extended, and already shifted into place for LUI and AUIPC. -/
inductive Instr where
  /- register-register (41_register_register.md) -/
  | add (rd rs1 rs2 : RegIdx)
  | sub (rd rs1 rs2 : RegIdx)
  | sll (rd rs1 rs2 : RegIdx)
  | slt (rd rs1 rs2 : RegIdx)
  | sltu (rd rs1 rs2 : RegIdx)
  | xor (rd rs1 rs2 : RegIdx)
  | srl (rd rs1 rs2 : RegIdx)
  | sra (rd rs1 rs2 : RegIdx)
  | or (rd rs1 rs2 : RegIdx)
  | and (rd rs1 rs2 : RegIdx)
  /- immediate (42_immediate.md) -/
  | addi (rd rs1 : RegIdx) (imm : Word)
  | slti (rd rs1 : RegIdx) (imm : Word)
  | sltiu (rd rs1 : RegIdx) (imm : Word)
  | xori (rd rs1 : RegIdx) (imm : Word)
  | ori (rd rs1 : RegIdx) (imm : Word)
  | andi (rd rs1 : RegIdx) (imm : Word)
  | slli (rd rs1 : RegIdx) (shamt : BitVec 5)
  | srli (rd rs1 : RegIdx) (shamt : BitVec 5)
  | srai (rd rs1 : RegIdx) (shamt : BitVec 5)
  /- load (43_load.md) -/
  | lb (rd rs1 : RegIdx) (imm : Word)
  | lh (rd rs1 : RegIdx) (imm : Word)
  | lw (rd rs1 : RegIdx) (imm : Word)
  | lbu (rd rs1 : RegIdx) (imm : Word)
  | lhu (rd rs1 : RegIdx) (imm : Word)
  /- store (44_store.md) -/
  | sb (rs1 rs2 : RegIdx) (imm : Word)
  | sh (rs1 rs2 : RegIdx) (imm : Word)
  | sw (rs1 rs2 : RegIdx) (imm : Word)
  /- branch (45_branch.md) -/
  | beq (rs1 rs2 : RegIdx) (imm : Word)
  | bne (rs1 rs2 : RegIdx) (imm : Word)
  | blt (rs1 rs2 : RegIdx) (imm : Word)
  | bge (rs1 rs2 : RegIdx) (imm : Word)
  | bltu (rs1 rs2 : RegIdx) (imm : Word)
  | bgeu (rs1 rs2 : RegIdx) (imm : Word)
  /- upper immediate (46_upper_immediate.md) -/
  | lui (rd : RegIdx) (imm : Word)
  | auipc (rd : RegIdx) (imm : Word)
  /- jump (47_jump.md) -/
  | jal (rd : RegIdx) (imm : Word)
  | jalr (rd rs1 : RegIdx) (imm : Word)
  /- fence (48_fence.md) -/
  | fence
  | fenceI
  /- system (49_system.md) -/
  | ecall
  | ebreak
  | csrrw (rd rs1 : RegIdx) (csr : BitVec 12)
  | csrrs (rd rs1 : RegIdx) (csr : BitVec 12)
  | csrrc (rd rs1 : RegIdx) (csr : BitVec 12)
  | csrrwi (rd : RegIdx) (uimm : BitVec 5) (csr : BitVec 12)
  | csrrsi (rd : RegIdx) (uimm : BitVec 5) (csr : BitVec 12)
  | csrrci (rd : RegIdx) (uimm : BitVec 5) (csr : BitVec 12)
  deriving DecidableEq, Repr

end Sys2Proof
end

