-- ==== Sys2Proof/WellFormed.lean ====
section
/-! DEFINITION. Which instructions have an encoding: the ranges R322 gives the immediates of each format. Register
numbers, shift amounts and CSR numbers have types that hold nothing else. -/

namespace Sys2Proof

/-- An I or S immediate lies in -2048 .. 2047 (R322). -/
def fitsI (imm : Word) : Bool := decide (-2048 ≤ imm.toInt ∧ imm.toInt ≤ 2047)

/-- A B immediate is even and lies in -4096 .. 4094 (R322). -/
def fitsB (imm : Word) : Bool := decide (imm.toInt % 2 = 0 ∧ -4096 ≤ imm.toInt ∧ imm.toInt ≤ 4094)

/-- A U immediate is a multiple of 4096 (R322). -/
def fitsU (imm : Word) : Bool := decide (imm.toNat % 4096 = 0)

/-- A J immediate is even and lies in -1048576 .. 1048574 (R322). -/
def fitsJ (imm : Word) : Bool := decide (imm.toInt % 2 = 0 ∧ -1048576 ≤ imm.toInt ∧ imm.toInt ≤ 1048574)

/-- The instruction's immediate is one its format can hold. -/
def Instr.wellFormed : Instr → Bool
  | .add _ _ _ | .sub _ _ _ | .sll _ _ _ | .slt _ _ _ | .sltu _ _ _ => true
  | .xor _ _ _ | .srl _ _ _ | .sra _ _ _ | .or _ _ _ | .and _ _ _ => true
  | .addi _ _ imm | .slti _ _ imm | .sltiu _ _ imm | .xori _ _ imm | .ori _ _ imm | .andi _ _ imm => fitsI imm
  | .slli _ _ _ | .srli _ _ _ | .srai _ _ _ => true
  | .lb _ _ imm | .lh _ _ imm | .lw _ _ imm | .lbu _ _ imm | .lhu _ _ imm => fitsI imm
  | .sb _ _ imm | .sh _ _ imm | .sw _ _ imm => fitsI imm
  | .beq _ _ imm | .bne _ _ imm | .blt _ _ imm | .bge _ _ imm | .bltu _ _ imm | .bgeu _ _ imm => fitsB imm
  | .lui _ imm | .auipc _ imm => fitsU imm
  | .jal _ imm => fitsJ imm
  | .jalr _ _ imm => fitsI imm
  | .fence | .fenceI | .ecall | .ebreak => true
  | .csrrw _ _ _ | .csrrs _ _ _ | .csrrc _ _ _ | .csrrwi _ _ _ | .csrrsi _ _ _ | .csrrci _ _ _ => true

end Sys2Proof
end

