-- ==== Sys2Proof/Decode.lean ====
section
/-! DEFINITION. The decoder (R300 to R354): fields, immediates, opcode tables and the decoded record, total on every
word; the reading of a record as an instruction; and the encoder, written from the same tables. -/

namespace Sys2Proof

/-! ## Fixed fields (R301) -/

/-- The opcode group, `w[6:0]`. -/
def groupField (w : Word) : BitVec 7 := w.extractLsb' 0 7

/-- `w[11:7]`. -/
def rdField (w : Word) : BitVec 5 := w.extractLsb' 7 5

/-- `w[14:12]`. -/
def funct3Field (w : Word) : BitVec 3 := w.extractLsb' 12 3

/-- `w[19:15]`. -/
def rs1Field (w : Word) : BitVec 5 := w.extractLsb' 15 5

/-- `w[24:20]`. -/
def rs2Field (w : Word) : BitVec 5 := w.extractLsb' 20 5

/-- `w[31:25]`. -/
def funct7Field (w : Word) : BitVec 7 := w.extractLsb' 25 7

/-- `w[31:20]`, the I immediate's field and the CSR number (R311). -/
def imm12Field (w : Word) : BitVec 12 := w.extractLsb' 20 12

/-! ## Immediates (R321) -/

/-- `imm_I = sext_12(w[31:20])`. -/
def immI (w : Word) : Word := sext 12 (place 0 (imm12Field w))

/-- `imm_S = sext_12(w[31:25], w[11:7])`. -/
def immS (w : Word) : Word := sext 12 (place 5 (funct7Field w) ||| place 0 (rdField w))

/-- `imm_B = sext_13(w[31], w[7], w[30:25], w[11:8], 0)`. -/
def immB (w : Word) : Word :=
  sext 13 (place 12 (w.extractLsb' 31 1) ||| place 11 (w.extractLsb' 7 1) ||| place 5 (w.extractLsb' 25 6) |||
    place 1 (w.extractLsb' 8 4))

/-- `imm_U = w[31:12]` above twelve zero bits. -/
def immU (w : Word) : Word := place 12 (w.extractLsb' 12 20)

/-- `imm_J = sext_21(w[31], w[19:12], w[20], w[30:21], 0)`. -/
def immJ (w : Word) : Word :=
  sext 21 (place 20 (w.extractLsb' 31 1) ||| place 12 (w.extractLsb' 12 8) ||| place 11 (w.extractLsb' 20 1) |||
    place 1 (w.extractLsb' 21 10))

/-- The immediate of a word read in a format; 0 for the two formats that carry none (R321). -/
def immOf (f : Format) (w : Word) : Word :=
  match f with
  | .r => 0
  | .i => immI w
  | .s => immS w
  | .b => immB w
  | .u => immU w
  | .j => immJ w
  | .none => 0

/-! ## Opcode tables (R330 to R338) -/

/-- R331, the OP group: the whole of funct7 and funct3 choose. -/
def opTable (f7 : BitVec 7) (f3 : BitVec 3) : Mnemonic :=
  match f7, f3 with
  | 0b0000000, 0b000 => .add
  | 0b0100000, 0b000 => .sub
  | 0b0000000, 0b001 => .sll
  | 0b0000000, 0b010 => .slt
  | 0b0000000, 0b011 => .sltu
  | 0b0000000, 0b100 => .xor
  | 0b0000000, 0b101 => .srl
  | 0b0100000, 0b101 => .sra
  | 0b0000000, 0b110 => .or
  | 0b0000000, 0b111 => .and
  | _, _ => .illegal

/-- R332, the OP-IMM group: funct3 chooses, and for the shifts funct7 must match too. -/
def opImmTable (f7 : BitVec 7) (f3 : BitVec 3) : Mnemonic :=
  match f3 with
  | 0b000 => .addi
  | 0b001 => if f7 = 0b0000000 then .slli else .illegal
  | 0b010 => .slti
  | 0b011 => .sltiu
  | 0b100 => .xori
  | 0b101 => if f7 = 0b0000000 then .srli else if f7 = 0b0100000 then .srai else .illegal
  | 0b110 => .ori
  | 0b111 => .andi
  | _ => .illegal

/-- R333, the LOAD group. -/
def loadTable (f3 : BitVec 3) : Mnemonic :=
  match f3 with
  | 0b000 => .lb
  | 0b001 => .lh
  | 0b010 => .lw
  | 0b100 => .lbu
  | 0b101 => .lhu
  | _ => .illegal

/-- R334, the STORE group. -/
def storeTable (f3 : BitVec 3) : Mnemonic :=
  match f3 with
  | 0b000 => .sb
  | 0b001 => .sh
  | 0b010 => .sw
  | _ => .illegal

/-- R335, the BRANCH group. -/
def branchTable (f3 : BitVec 3) : Mnemonic :=
  match f3 with
  | 0b000 => .beq
  | 0b001 => .bne
  | 0b100 => .blt
  | 0b101 => .bge
  | 0b110 => .bltu
  | 0b111 => .bgeu
  | _ => .illegal

/-- R336, the JALR group. -/
def jalrTable (f3 : BitVec 3) : Mnemonic := if f3 = 0b000 then .jalr else .illegal

/-- R337, the MISC-MEM group: two exact words, the parameters `FENCE_WORD` and `FENCE_I_WORD`. -/
def miscMemTable (c : Config) (w : Word) : Mnemonic :=
  if w = c.fenceWord then .fence else if w = c.fenceIWord then .fenceI else .illegal

/-- R338, the SYSTEM group: two exact words under funct3 000, and the CSR mnemonics. -/
def systemTable (w : Word) : Mnemonic :=
  match funct3Field w with
  | 0b000 => if w = 0x00000073 then .ecall else if w = 0x00100073 then .ebreak else .illegal
  | 0b001 => .csrrw
  | 0b010 => .csrrs
  | 0b011 => .csrrc
  | 0b101 => .csrrwi
  | 0b110 => .csrrsi
  | 0b111 => .csrrci
  | _ => .illegal

/-- A table's answer with the group's category; the illegal sentinel has category illegal in every group (R340). -/
def inCategory (k : Category) (m : Mnemonic) : Category × Mnemonic :=
  if m = .illegal then (.illegal, .illegal) else (k, m)

/-- The dispatch category and the mnemonic of a word (R330, R343). -/
def classify (c : Config) (w : Word) : Category × Mnemonic :=
  match groupField w with
  | 0b0110011 => inCategory .registerRegister (opTable (funct7Field w) (funct3Field w))
  | 0b0010011 => inCategory .immediate (opImmTable (funct7Field w) (funct3Field w))
  | 0b0000011 => inCategory .load (loadTable (funct3Field w))
  | 0b0100011 => inCategory .store (storeTable (funct3Field w))
  | 0b1100011 => inCategory .branch (branchTable (funct3Field w))
  | 0b0110111 => (.upperImmediate, .lui)
  | 0b0010111 => (.upperImmediate, .auipc)
  | 0b1101111 => (.jump, .jal)
  | 0b1100111 => inCategory .jump (jalrTable (funct3Field w))
  | 0b0001111 => inCategory .fence (miscMemTable c w)
  | 0b1110011 => inCategory .system (systemTable w)
  | _ => (.illegal, .illegal)

/-- The immediate format of a category: J for JAL and I for JALR (R326). -/
def formatOf (k : Category) (m : Mnemonic) : Format :=
  match k with
  | .registerRegister => .r
  | .immediate => .i
  | .load => .i
  | .store => .s
  | .branch => .b
  | .upperImmediate => .u
  | .jump => if m = .jal then .j else .i
  | .fence => .i
  | .system => .i
  | .illegal => .none

/-- The decoder (R343). It answers a record for every word; an illegal word's record has category illegal and keeps its
opcode group (R340, R342). -/
def decode (c : Config) (w : Word) : Record where
  raw := w
  group := groupField w
  funct3 := funct3Field w
  funct7 := funct7Field w
  rd := (rdField w).toFin
  rs1 := (rs1Field w).toFin
  rs2 := (rs2Field w).toFin
  imm := immOf (formatOf (classify c w).1 (classify c w).2) w
  category := (classify c w).1
  mnemonic := (classify c w).2

/-! ## A record as an instruction: the table of R410, by category and then by mnemonic -/

/-- The register-register row of R410. -/
def Record.registerRegisterInstr (r : Record) : Option Instr :=
  match r.mnemonic with
  | .add => some (.add r.rd r.rs1 r.rs2)
  | .sub => some (.sub r.rd r.rs1 r.rs2)
  | .sll => some (.sll r.rd r.rs1 r.rs2)
  | .slt => some (.slt r.rd r.rs1 r.rs2)
  | .sltu => some (.sltu r.rd r.rs1 r.rs2)
  | .xor => some (.xor r.rd r.rs1 r.rs2)
  | .srl => some (.srl r.rd r.rs1 r.rs2)
  | .sra => some (.sra r.rd r.rs1 r.rs2)
  | .or => some (.or r.rd r.rs1 r.rs2)
  | .and => some (.and r.rd r.rs1 r.rs2)
  | _ => none

/-- The shift amount of SLLI, SRLI and SRAI: `imm_I[4:0]` (R324, R506). -/
def Record.shamt (r : Record) : BitVec 5 := r.imm.setWidth 5

/-- The immediate row of R410. -/
def Record.immediateInstr (r : Record) : Option Instr :=
  match r.mnemonic with
  | .addi => some (.addi r.rd r.rs1 r.imm)
  | .slti => some (.slti r.rd r.rs1 r.imm)
  | .sltiu => some (.sltiu r.rd r.rs1 r.imm)
  | .xori => some (.xori r.rd r.rs1 r.imm)
  | .ori => some (.ori r.rd r.rs1 r.imm)
  | .andi => some (.andi r.rd r.rs1 r.imm)
  | .slli => some (.slli r.rd r.rs1 r.shamt)
  | .srli => some (.srli r.rd r.rs1 r.shamt)
  | .srai => some (.srai r.rd r.rs1 r.shamt)
  | _ => none

/-- The load row of R410. -/
def Record.loadInstr (r : Record) : Option Instr :=
  match r.mnemonic with
  | .lb => some (.lb r.rd r.rs1 r.imm)
  | .lh => some (.lh r.rd r.rs1 r.imm)
  | .lw => some (.lw r.rd r.rs1 r.imm)
  | .lbu => some (.lbu r.rd r.rs1 r.imm)
  | .lhu => some (.lhu r.rd r.rs1 r.imm)
  | _ => none

/-- The store row of R410. -/
def Record.storeInstr (r : Record) : Option Instr :=
  match r.mnemonic with
  | .sb => some (.sb r.rs1 r.rs2 r.imm)
  | .sh => some (.sh r.rs1 r.rs2 r.imm)
  | .sw => some (.sw r.rs1 r.rs2 r.imm)
  | _ => none

/-- The branch row of R410. -/
def Record.branchInstr (r : Record) : Option Instr :=
  match r.mnemonic with
  | .beq => some (.beq r.rs1 r.rs2 r.imm)
  | .bne => some (.bne r.rs1 r.rs2 r.imm)
  | .blt => some (.blt r.rs1 r.rs2 r.imm)
  | .bge => some (.bge r.rs1 r.rs2 r.imm)
  | .bltu => some (.bltu r.rs1 r.rs2 r.imm)
  | .bgeu => some (.bgeu r.rs1 r.rs2 r.imm)
  | _ => none

/-- The upper-immediate row of R410. -/
def Record.upperImmediateInstr (r : Record) : Option Instr :=
  match r.mnemonic with
  | .lui => some (.lui r.rd r.imm)
  | .auipc => some (.auipc r.rd r.imm)
  | _ => none

/-- The jump row of R410. -/
def Record.jumpInstr (r : Record) : Option Instr :=
  match r.mnemonic with
  | .jal => some (.jal r.rd r.imm)
  | .jalr => some (.jalr r.rd r.rs1 r.imm)
  | _ => none

/-- The fence row of R410. -/
def Record.fenceInstr (r : Record) : Option Instr :=
  match r.mnemonic with
  | .fence => some .fence
  | .fenceI => some .fenceI
  | _ => none

/-- The CSR number of a CSR word, `w[31:20]` (R311, R900). -/
def Record.csr (r : Record) : BitVec 12 := imm12Field r.raw

/-- The 5-bit immediate of a CSR word, `w[19:15]` (R311, R900). -/
def Record.uimm (r : Record) : BitVec 5 := rs1Field r.raw

/-- The system row of R410. -/
def Record.systemInstr (r : Record) : Option Instr :=
  match r.mnemonic with
  | .ecall => some .ecall
  | .ebreak => some .ebreak
  | .csrrw => some (.csrrw r.rd r.rs1 r.csr)
  | .csrrs => some (.csrrs r.rd r.rs1 r.csr)
  | .csrrc => some (.csrrc r.rd r.rs1 r.csr)
  | .csrrwi => some (.csrrwi r.rd r.uimm r.csr)
  | .csrrsi => some (.csrrsi r.rd r.uimm r.csr)
  | .csrrci => some (.csrrci r.rd r.uimm r.csr)
  | _ => none

/-- The instruction a record stands for, by category and then by mnemonic (R403, R410). None for the illegal category,
and for a pair of category and mnemonic that R410 does not list. -/
def Record.toInstr (r : Record) : Option Instr :=
  match r.category with
  | .registerRegister => r.registerRegisterInstr
  | .immediate => r.immediateInstr
  | .load => r.loadInstr
  | .store => r.storeInstr
  | .branch => r.branchInstr
  | .upperImmediate => r.upperImmediateInstr
  | .jump => r.jumpInstr
  | .fence => r.fenceInstr
  | .system => r.systemInstr
  | .illegal => none

/-- The instruction of a word, none where the word is illegal. -/
def decodeInstr (c : Config) (w : Word) : Option Instr := (decode c w).toInstr

/-- Why a list of bytes gives no instruction: there are fewer than four, or the word they hold is illegal (R350), of
which the opcode group is kept (R1001). -/
inductive DecodeError where
  | truncated
  | illegal (group : BitVec 7)
  deriving DecidableEq, Repr

/-- The instruction in the first four of these bytes, little-endian (R300), and the bytes after them. -/
def decodeBytes (c : Config) (bs : List Byte) : Except DecodeError (Instr × List Byte) :=
  match bs with
  | b0 :: b1 :: b2 :: b3 :: rest =>
    match decodeInstr c (leWord [b0, b1, b2, b3]) with
    | some i => .ok (i, rest)
    | none => .error (.illegal (groupField (leWord [b0, b1, b2, b3])))
  | _ => .error .truncated

/-- The bits of an opcode-table word as an instruction word: the table numbers bit 0 as the least significant bit. -/
def tableWord (nbits w : Nat) : Word := BitVec.ofNat 32 (w % 2 ^ nbits)

/-- The instruction the decoder reads from an opcode-table word of `nbits` bits, laid out in memory order and given to
the decoder as bytes. The fence words are those of `defaultConfig` (R12). -/
def decodeTableWord (nbits w : Nat) : Option Instr :=
  match decodeBytes defaultConfig (leBytes 4 (tableWord nbits w)) with
  | .ok (i, _) => some i
  | .error _ => none

/-! ## The encoder, from the layouts of R310 to R315 and the tables of R331 to R338 -/

/-- The five bits that name a register. -/
def regBits (i : RegIdx) : BitVec 5 := BitVec.ofFin i

/-- R310: funct7, rs2, rs1, funct3, rd, opcode. -/
def encodeR (f7 : BitVec 7) (rs2 rs1 : BitVec 5) (f3 : BitVec 3) (rd : BitVec 5) (op : BitVec 7) : Word :=
  place 25 f7 ||| place 20 rs2 ||| place 15 rs1 ||| place 12 f3 ||| place 7 rd ||| place 0 op

/-- R311: the 12-bit immediate, rs1, funct3, rd, opcode. -/
def encodeI (imm : BitVec 12) (rs1 : BitVec 5) (f3 : BitVec 3) (rd : BitVec 5) (op : BitVec 7) : Word :=
  place 20 imm ||| place 15 rs1 ||| place 12 f3 ||| place 7 rd ||| place 0 op

/-- R312: the immediate in two pieces, bits 11 to 5 and bits 4 to 0. -/
def encodeS (imm : Word) (rs2 rs1 : BitVec 5) (f3 : BitVec 3) (op : BitVec 7) : Word :=
  encodeR (imm.extractLsb' 5 7) rs2 rs1 f3 (imm.extractLsb' 0 5) op

/-- R313: the immediate's bit 12, bits 10 to 5, bits 4 to 1 and bit 11. -/
def encodeB (imm : Word) (rs2 rs1 : BitVec 5) (f3 : BitVec 3) (op : BitVec 7) : Word :=
  place 31 (imm.extractLsb' 12 1) ||| place 25 (imm.extractLsb' 5 6) ||| place 20 rs2 ||| place 15 rs1 ||| place 12 f3 |||
    place 8 (imm.extractLsb' 1 4) ||| place 7 (imm.extractLsb' 11 1) ||| place 0 op

/-- R314: the immediate's upper 20 bits. -/
def encodeU (imm : Word) (rd : BitVec 5) (op : BitVec 7) : Word :=
  place 12 (imm.extractLsb' 12 20) ||| place 7 rd ||| place 0 op

/-- R315: the immediate's bit 20, bits 10 to 1, bit 11 and bits 19 to 12. -/
def encodeJ (imm : Word) (rd : BitVec 5) (op : BitVec 7) : Word :=
  place 31 (imm.extractLsb' 20 1) ||| place 21 (imm.extractLsb' 1 10) ||| place 20 (imm.extractLsb' 11 1) |||
    place 12 (imm.extractLsb' 12 8) ||| place 7 rd ||| place 0 op

/-- An OP word (R331). -/
def encodeOp (f7 : BitVec 7) (f3 : BitVec 3) (rd rs1 rs2 : RegIdx) : Word :=
  encodeR f7 (regBits rs2) (regBits rs1) f3 (regBits rd) 0b0110011#7

/-- An I-format word whose immediate is the low 12 bits of `imm` (R311). -/
def encodeImm (op : BitVec 7) (f3 : BitVec 3) (rd rs1 : RegIdx) (imm : Word) : Word :=
  encodeI (imm.setWidth 12) (regBits rs1) f3 (regBits rd) op

/-- A shift-immediate word (R311, R332). -/
def encodeShift (f7 : BitVec 7) (f3 : BitVec 3) (rd rs1 : RegIdx) (shamt : BitVec 5) : Word :=
  encodeR f7 shamt (regBits rs1) f3 (regBits rd) 0b0010011#7

/-- A CSR word (R311, R338); the middle field is rs1 or the 5-bit immediate. -/
def encodeCsr (f3 : BitVec 3) (rd : RegIdx) (mid : BitVec 5) (csr : BitVec 12) : Word :=
  encodeI csr mid f3 (regBits rd) 0b1110011#7

/-- The word of an instruction. -/
def encode (c : Config) : Instr → Word
  | .add rd rs1 rs2 => encodeOp 0b0000000#7 0b000#3 rd rs1 rs2
  | .sub rd rs1 rs2 => encodeOp 0b0100000#7 0b000#3 rd rs1 rs2
  | .sll rd rs1 rs2 => encodeOp 0b0000000#7 0b001#3 rd rs1 rs2
  | .slt rd rs1 rs2 => encodeOp 0b0000000#7 0b010#3 rd rs1 rs2
  | .sltu rd rs1 rs2 => encodeOp 0b0000000#7 0b011#3 rd rs1 rs2
  | .xor rd rs1 rs2 => encodeOp 0b0000000#7 0b100#3 rd rs1 rs2
  | .srl rd rs1 rs2 => encodeOp 0b0000000#7 0b101#3 rd rs1 rs2
  | .sra rd rs1 rs2 => encodeOp 0b0100000#7 0b101#3 rd rs1 rs2
  | .or rd rs1 rs2 => encodeOp 0b0000000#7 0b110#3 rd rs1 rs2
  | .and rd rs1 rs2 => encodeOp 0b0000000#7 0b111#3 rd rs1 rs2
  | .addi rd rs1 imm => encodeImm 0b0010011#7 0b000#3 rd rs1 imm
  | .slti rd rs1 imm => encodeImm 0b0010011#7 0b010#3 rd rs1 imm
  | .sltiu rd rs1 imm => encodeImm 0b0010011#7 0b011#3 rd rs1 imm
  | .xori rd rs1 imm => encodeImm 0b0010011#7 0b100#3 rd rs1 imm
  | .ori rd rs1 imm => encodeImm 0b0010011#7 0b110#3 rd rs1 imm
  | .andi rd rs1 imm => encodeImm 0b0010011#7 0b111#3 rd rs1 imm
  | .slli rd rs1 shamt => encodeShift 0b0000000#7 0b001#3 rd rs1 shamt
  | .srli rd rs1 shamt => encodeShift 0b0000000#7 0b101#3 rd rs1 shamt
  | .srai rd rs1 shamt => encodeShift 0b0100000#7 0b101#3 rd rs1 shamt
  | .lb rd rs1 imm => encodeImm 0b0000011#7 0b000#3 rd rs1 imm
  | .lh rd rs1 imm => encodeImm 0b0000011#7 0b001#3 rd rs1 imm
  | .lw rd rs1 imm => encodeImm 0b0000011#7 0b010#3 rd rs1 imm
  | .lbu rd rs1 imm => encodeImm 0b0000011#7 0b100#3 rd rs1 imm
  | .lhu rd rs1 imm => encodeImm 0b0000011#7 0b101#3 rd rs1 imm
  | .sb rs1 rs2 imm => encodeS imm (regBits rs2) (regBits rs1) 0b000#3 0b0100011#7
  | .sh rs1 rs2 imm => encodeS imm (regBits rs2) (regBits rs1) 0b001#3 0b0100011#7
  | .sw rs1 rs2 imm => encodeS imm (regBits rs2) (regBits rs1) 0b010#3 0b0100011#7
  | .beq rs1 rs2 imm => encodeB imm (regBits rs2) (regBits rs1) 0b000#3 0b1100011#7
  | .bne rs1 rs2 imm => encodeB imm (regBits rs2) (regBits rs1) 0b001#3 0b1100011#7
  | .blt rs1 rs2 imm => encodeB imm (regBits rs2) (regBits rs1) 0b100#3 0b1100011#7
  | .bge rs1 rs2 imm => encodeB imm (regBits rs2) (regBits rs1) 0b101#3 0b1100011#7
  | .bltu rs1 rs2 imm => encodeB imm (regBits rs2) (regBits rs1) 0b110#3 0b1100011#7
  | .bgeu rs1 rs2 imm => encodeB imm (regBits rs2) (regBits rs1) 0b111#3 0b1100011#7
  | .lui rd imm => encodeU imm (regBits rd) 0b0110111#7
  | .auipc rd imm => encodeU imm (regBits rd) 0b0010111#7
  | .jal rd imm => encodeJ imm (regBits rd) 0b1101111#7
  | .jalr rd rs1 imm => encodeImm 0b1100111#7 0b000#3 rd rs1 imm
  | .fence => c.fenceWord
  | .fenceI => c.fenceIWord
  | .ecall => 0x00000073
  | .ebreak => 0x00100073
  | .csrrw rd rs1 csr => encodeCsr 0b001#3 rd (regBits rs1) csr
  | .csrrs rd rs1 csr => encodeCsr 0b010#3 rd (regBits rs1) csr
  | .csrrc rd rs1 csr => encodeCsr 0b011#3 rd (regBits rs1) csr
  | .csrrwi rd uimm csr => encodeCsr 0b101#3 rd uimm csr
  | .csrrsi rd uimm csr => encodeCsr 0b110#3 rd uimm csr
  | .csrrci rd uimm csr => encodeCsr 0b111#3 rd uimm csr

end Sys2Proof
end

