-- ==== Sys2Proof/Machine/Flags.lean ====
section
/-! DEFINITION. The CORE has no flags (R115). What stands in their place: the comparisons of R14, which decide a branch
or give a word. -/

namespace Sys2Proof.Machine

/-- `a <s b` (R14). -/
def ltSigned (a b : Word) : Bool := decide (a.toInt < b.toInt)

/-- `a >=s b` (R14). -/
def geSigned (a b : Word) : Bool := decide (b.toInt ≤ a.toInt)

/-- `a <u b` (R14). -/
def ltUnsigned (a b : Word) : Bool := decide (a.toNat < b.toNat)

/-- `a >=u b` (R14). -/
def geUnsigned (a b : Word) : Bool := decide (b.toNat ≤ a.toNat)

/-- A comparison yields 1 or 0 as a word (R14). -/
def comparisonWord (b : Bool) : Word := if b then 1 else 0

end Sys2Proof.Machine
end

