-- ==== Sys2Proof/Machine/State.lean ====
section
/-! DEFINITION. The whole state of one CORE as plain data (10_state.md), why a step may fail to be a step, and the state
`State.reset`. -/

namespace Sys2Proof.Machine

/-- The error kinds of R1000, each with the info it carries. -/
inductive ErrorKind where
  /-- Raised by the execution of a word decoded as illegal; carries its opcode group `w[6:0]` (R1001). -/
  | illegalInstruction (group : BitVec 7)
  /-- Raised by a fetch, a load, a store or `raw_pointer`; carries the address and the width (R1002). -/
  | addressOutOfBounds (addr : Word) (width : Nat)
  /-- Raised by read word and read string when the input stream fails (R1003). -/
  | inputError
  /-- Raised by ECALL when x17 is no selector; carries x17 (R1004). -/
  | unsupportedSyscall (selector : Word)
  /-- Internal/Unreachable: a dispatch the decoder never produces (R1005). -/
  | internal
  /-- Raised by a read string that would write past the end of memory; carries the address and the length (R1006). -/
  | hostBufferOverrun (addr : Word) (length : Nat)
  /-- Raised by a write string with no NUL before the end of memory; carries the address (R1006). -/
  | unterminatedString (addr : Word)
  deriving DecidableEq, Repr

/-- The run status (R120): `Running`, `Exited(v)` or `Faulted(E, info)`. The last two are final (R121). -/
inductive RunStatus where
  | running
  | exited (value : Word)
  | faulted (error : ErrorKind)
  deriving DecidableEq, Repr

/-- The stream an output event goes to (R122, R876). -/
inductive Stream where
  | stdout
  | stderr
  deriving DecidableEq, Repr

/-- What an output event carries: a word or a byte string (R876). -/
inductive Item where
  | word (value : Word)
  | bytes (value : List Byte)
  deriving DecidableEq, Repr

/-- One output event of the I/O trace (R122, R876). -/
structure Event where
  stream : Stream
  item : Item
  deriving DecidableEq, Repr

/-- The memory: `size` is `MEM_SIZE`, and address a names a byte for a below it (R117, R200). `cells` lists, by rising
address, the bytes that differ from `unlistedByte`. -/
structure Memory where
  size : Nat
  cells : List Host.Cell
  deriving DecidableEq, Repr

/-- The canonical form: addresses rise strictly, no listed byte equals what an unlisted address reads as, every address
lies below the size, and the size is one R10 allows. -/
abbrev Memory.wf (m : Memory) : Prop :=
  m.cells.Pairwise (fun c d => c.1 < d.1) ∧ (∀ c ∈ m.cells, c.2 ≠ unlistedByte ∧ c.1 < m.size) ∧ m.size ≤ 2 ^ 32

/-- THE MODEL'S OWN, not the spec's: the answers the host's input oracle will give (R870). The spec makes each answer a
free input of the step; here the answers still to come stand in the state, so that a statement about every state is a
statement about every answer. `words` are those to the coming read-word calls and `lines` those to the coming read-string
calls. Beyond the list, the answer is a free value, numbered by `asked`. -/
structure Oracle where
  words : List (Answer Word)
  lines : List (Answer (List Byte))
  asked : Nat
  deriving DecidableEq, Repr

/-- The state of one CORE: its parameters, and the five parts of `CoreState` (10_state.md), and the model's oracle. -/
structure State where
  /-- The parameters the CORE was built with (R11, R12); no step and no host port changes them. -/
  cfg : Config
  /-- The register file, 32 words (R100); read and written through `State.readReg` and `State.writeReg` alone. -/
  regs : Vector Word 32
  /-- The program counter (R110). -/
  pc : Word
  /-- The memory (R117). -/
  mem : Memory
  /-- The run status (R120). -/
  status : RunStatus
  /-- The output events so far, oldest first (R122). -/
  trace : List Event
  /-- The model's own: the input oracle's coming answers (R870). -/
  oracle : Oracle
  deriving DecidableEq, Repr

/-- Why the machine gives no next state. No instruction does this: an error of the CORE is a next state whose run status
says so (R1020). -/
inductive Fault where
  /-- Raised by `step` alone, on a state whose run status is not `Running`: such a CORE takes no further step (R121,
  R130). Safe: the model stops where the hardware stops. -/
  | runEnded (status : RunStatus)
  deriving DecidableEq, Repr

/-- What the model declines to answer. -/
inductive Refusal where
  /-- Raised by an arm of `exec` for an instruction that has no meaning yet; no arm does. Safe. -/
  | notModelled (mnemonic : String)
  /-- Raised by the host ports that name one register, for an index outside 0 to 31, a call the host may not make (R133).
  Safe: the spec gives the call no effect. -/
  | hostRegisterIndex (index : Nat)
  deriving DecidableEq, Repr

/-- What one step, or one instruction, answers. -/
abbrev Result := Host.Outcome State Fault Refusal

/-- The state right after construction (R140, R1100) with the parameters of `defaultConfig`, no initial PC or SP from the
host, an image whose bytes are all what an unlisted address reads as, and no input answer listed (log entries 1 to 4). -/
def State.reset : State where
  cfg := defaultConfig
  regs := (defaultConfig.initRegs.set 0 0).set 2 defaultConfig.stackTop
  pc := defaultConfig.entryPc
  mem := { size := defaultMemSize, cells := [] }
  status := .running
  trace := []
  oracle := { words := [], lines := [], asked := 0 }

end Sys2Proof.Machine
end

