-- ==== Sys2Proof/Machine/Ops.lean ====
section
/-! DEFINITION. The operations every instruction is made of: registers, memory, control, the end of a run, the output
trace and the input oracle (R16 to R19). -/

namespace Sys2Proof.Machine

/-! ## Registers -/

/-- `x[i]`: 0 for register 0, the stored word for any other (R16, R101). -/
def State.readReg (s : State) (i : RegIdx) : Word := if i = 0 then 0 else s.regs[i]

/-- `x[i] <- v`: discarded for register 0 (R16, R102). -/
def State.writeReg (s : State) (i : RegIdx) (v : Word) : State :=
  if i = 0 then s else { s with regs := s.regs.set i v }

/-- `x[0] <- 0`, forced (R422). -/
def State.restoreX0 (s : State) : State := { s with regs := s.regs.set 0 0 }

/-- a0, the argument and result register of the system-call layer (R104, R851). -/
def regA0 : RegIdx := 10

/-- a7, the selector register of the system-call layer (R104, R851). -/
def regA7 : RegIdx := 17

/-- sp, the name of register 2 (R104, R132). -/
def regSp : RegIdx := 2

/-! ## Memory -/

/-- The byte a list of cells gives an address. -/
def cellsRead : List Host.Cell → Nat → Byte
  | [], _ => unlistedByte
  | (k, b) :: rest, a => if k = a then b else cellsRead rest a

/-- The list with a cell put before the first cell of a higher address. -/
def cellsInsert : List Host.Cell → Nat → Byte → List Host.Cell
  | [], a, b => [(a, b)]
  | (k, x) :: rest, a, b => if a < k then (a, b) :: (k, x) :: rest else (k, x) :: cellsInsert rest a b

/-- The list with an address set to a byte; a byte that an unlisted address reads as is not listed. -/
def cellsWrite (cells : List Host.Cell) (a : Nat) (b : Byte) : List Host.Cell :=
  if b = unlistedByte then cells.filter (fun c => c.1 ≠ a)
  else cellsInsert (cells.filter (fun c => c.1 ≠ a)) a b

/-- `mem[a]` (R200). -/
def Memory.readByte (m : Memory) (a : Nat) : Byte := cellsRead m.cells a

/-- `mem[a] <- b` (R200). -/
def Memory.writeByte (m : Memory) (a : Nat) (b : Byte) : Memory := { m with cells := cellsWrite m.cells a b }

/-- The n bytes from an address up. -/
def Memory.readBytes (m : Memory) (a : Nat) : Nat → List Byte
  | 0 => []
  | n + 1 => m.readByte a :: m.readBytes (a + 1) n

/-- The bytes put at an address and up, in order. -/
def Memory.writeBytes (m : Memory) (a : Nat) : List Byte → Memory
  | [] => m
  | b :: bs => (m.writeByte a b).writeBytes (a + 1) bs

/-- The bounds check of R201, passed: the access ends at or before `MEM_SIZE`, the sum taken as integers (R203). -/
def Memory.inBounds (m : Memory) (addr : Word) (n : Nat) : Bool := decide (addr.toNat + n ≤ m.size)

/-- `MemRead(addr, n)`, little-endian (R202, R208). -/
def State.memRead (s : State) (addr : Word) (n : Nat) : Except ErrorKind Word :=
  if s.mem.inBounds addr n then .ok (leWord (s.mem.readBytes addr.toNat n))
  else .error (.addressOutOfBounds addr n)

/-- `MemWrite(addr, n, v)`, little-endian: the check comes before any byte is written (R204, R205). -/
def State.memWrite (s : State) (addr : Word) (n : Nat) (v : Word) : Except ErrorKind State :=
  if s.mem.inBounds addr n then .ok { s with mem := s.mem.writeBytes addr.toNat (leBytes n v) }
  else .error (.addressOutOfBounds addr n)

/-- `raw_pointer(addr)`: `check(addr, 1)`, and the address as an index into memory (R212). -/
def State.rawPointer (s : State) (addr : Word) : Except ErrorKind Nat :=
  if s.mem.inBounds addr 1 then .ok addr.toNat else .error (.addressOutOfBounds addr 1)

/-- The byte string from an address up to the first NUL, which is not part of it; none if the given number of bytes holds
no NUL (R866). -/
def Memory.stringAt (m : Memory) (a : Nat) : Nat → Option (List Byte)
  | 0 => none
  | n + 1 => if m.readByte a = 0 then some [] else (m.stringAt (a + 1) n).map (fun bs => m.readByte a :: bs)

/-! ## Control -/

/-- The default advance, `pc <- pc + 4` modulo 2^32 (R112, R420). -/
def State.advance (s : State) : State := { s with pc := s.pc + 4 }

/-- `pc <- target` (R18). -/
def State.jumpTo (s : State) (target : Word) : State := { s with pc := target }

/-- An instruction that wrote what it had to and did not set the pc: it ends with the default advance (R420). -/
def complete (s : State) : Result := .next s.advance

/-- An instruction whose only result is a register (R460, R510, R562, R710). -/
def writeResult (rd : RegIdx) (v : Word) (s : State) : Result := complete (s.writeReg rd v)

/-! ## The two ends of a run -/

/-- TAKING AN ERROR, the one way every error of the CORE is taken: `raise E(info)` ends the step with status `Faulted`,
and the pc keeps the address of the failing instruction. Nothing is saved, no handler runs and no other part of the state
changes (R425, R1020, R1021). There is no return from it (R1022, R1023). -/
def raise (e : ErrorKind) (s : State) : Result := .next { s with status := .faulted e }

/-- `exit(v)`: the step ends with status `Exited(v)`, and the pc is not advanced (R18, R423). -/
def exitWith (v : Word) (s : State) : Result := .next { s with status := .exited v }

/-! ## Host input and output -/

/-- `emit(stream, item)`: one event at the end of the trace (R19, R876, R877). -/
def State.emit (s : State) (stream : Stream) (item : Item) : State :=
  { s with trace := s.trace ++ [{ stream := stream, item := item }] }

/-- `input_word()`: the oracle's answer and the oracle after it (R871). -/
def Oracle.askWord (o : Oracle) : Answer Word × Oracle :=
  match o.words with
  | a :: rest => (a, { o with words := rest })
  | [] => (Config.freeInputWord o.asked, { o with asked := o.asked + 1 })

/-- An answer to `input_line(max)` holds at most max bytes (R872). -/
def boundLine (max : Nat) (a : Answer (List Byte)) : Answer (List Byte) :=
  match a with
  | .fail => .fail
  | .ok bs => .ok (bs.take max)

/-- `input_line(max)`: the oracle's answer and the oracle after it (R872). -/
def Oracle.askLine (o : Oracle) (max : Nat) : Answer (List Byte) × Oracle :=
  match o.lines with
  | a :: rest => (boundLine max a, { o with lines := rest })
  | [] => (boundLine max (Config.freeInputLine o.asked), { o with asked := o.asked + 1 })

/-! ## Fetch -/

/-- The fetch, `MemRead(pc, 4)` (R207, R401). -/
def fetch (s : State) : Except ErrorKind Word := s.memRead s.pc 4

end Sys2Proof.Machine
end

