-- ==== Sys2Proof/Machine/Operands.lean ====
section
/-! DEFINITION. Operand forms: effective addresses, shift amounts, branch and jump targets, link values. -/

namespace Sys2Proof.Machine

/-- The one addressing mode, base plus offset modulo 2^32 (R560, R610). -/
def State.effectiveAddress (s : State) (rs1 : RegIdx) (imm : Word) : Word := s.readReg rs1 + imm

/-- A shift amount: the low 5 bits of the shift operand (R324). -/
def shiftAmount (v : Word) : Nat := (v.setWidth 5).toNat

/-- `<<` by a shift operand, filling with 0 (R14, R452). -/
def shiftLeft (v by_ : Word) : Word := v <<< shiftAmount by_

/-- `>>u` by a shift operand, filling with 0 (R14, R456). -/
def shiftRightLogical (v by_ : Word) : Word := v >>> shiftAmount by_

/-- `>>s` by a shift operand, filling with bit 31 (R14, R457). -/
def shiftRightArithmetic (v by_ : Word) : Word := v.sshiftRight (shiftAmount by_)

/-- A shift-immediate's operand: the shamt field as a word, of which the low 5 bits count (R324). -/
def shiftOperand (shamt : BitVec 5) : Word := shamt.setWidth 32

/-- `NEXT`, the address of the following instruction and the link value of the jumps (R18, R760). -/
def State.nextPc (s : State) : Word := s.pc + 4

/-- A PC-relative target, modulo 2^32 (R661, R750). -/
def State.pcRelative (s : State) (imm : Word) : Word := s.pc + imm

/-- A word with bit 0 cleared, `v & 0xFFFFFFFE` (R751, R761). -/
def clearBit0 (v : Word) : Word := v &&& 0xFFFFFFFE#32

end Sys2Proof.Machine
end

