-- ==== Sys2Proof/Machine/Branch.lean ====
section
/-! DEFINITION. Conditional branches (45_branch.md). -/

namespace Sys2Proof.Machine

/-- A branch: taken, the pc becomes the pc of the branch plus the offset; not taken, it advances (R421, R660, R661). -/
def branchIf (taken : Bool) (imm : Word) (s : State) : Result :=
  if taken then .next (s.jumpTo (s.pcRelative imm)) else complete s

/-- BEQ: taken if equal (R650). -/
def execBeq (rs1 rs2 : RegIdx) (imm : Word) (s : State) : Result :=
  branchIf (decide (s.readReg rs1 = s.readReg rs2)) imm s

/-- BNE: taken if not equal (R651). -/
def execBne (rs1 rs2 : RegIdx) (imm : Word) (s : State) : Result :=
  branchIf (decide (s.readReg rs1 ≠ s.readReg rs2)) imm s

/-- BLT: taken if less, signed (R652). -/
def execBlt (rs1 rs2 : RegIdx) (imm : Word) (s : State) : Result :=
  branchIf (ltSigned (s.readReg rs1) (s.readReg rs2)) imm s

/-- BGE: taken if greater or equal, signed (R653). -/
def execBge (rs1 rs2 : RegIdx) (imm : Word) (s : State) : Result :=
  branchIf (geSigned (s.readReg rs1) (s.readReg rs2)) imm s

/-- BLTU: taken if less, unsigned (R654). -/
def execBltu (rs1 rs2 : RegIdx) (imm : Word) (s : State) : Result :=
  branchIf (ltUnsigned (s.readReg rs1) (s.readReg rs2)) imm s

/-- BGEU: taken if greater or equal, unsigned (R655). -/
def execBgeu (rs1 rs2 : RegIdx) (imm : Word) (s : State) : Result :=
  branchIf (geUnsigned (s.readReg rs1) (s.readReg rs2)) imm s

end Sys2Proof.Machine
end

