-- ==== Sys2Proof/Machine/Fence.lean ====
section
/-! DEFINITION. Fences (48_fence.md): both are no-ops (R810). -/

namespace Sys2Proof.Machine

/-- FENCE: nothing but the advance (R800, R810). -/
def execFence (s : State) : Result := complete s

/-- FENCE.I: nothing but the advance (R801, R810). -/
def execFenceI (s : State) : Result := complete s

end Sys2Proof.Machine
end

