-- ==== Sys2Proof/Machine/Immediate.lean ====
section
/-! DEFINITION. Immediate arithmetic, logic and shifts (42_immediate.md; R510). -/

namespace Sys2Proof.Machine

/-- ADDI: `x[rd] <- x[rs1] + imm_I`, modulo 2^32 (R500). -/
def execAddi (rd rs1 : RegIdx) (imm : Word) (s : State) : Result :=
  writeResult rd (s.readReg rs1 + imm) s

/-- SLTI: `(x[rs1] <s imm_I) ? 1 : 0` (R501). -/
def execSlti (rd rs1 : RegIdx) (imm : Word) (s : State) : Result :=
  writeResult rd (comparisonWord (ltSigned (s.readReg rs1) imm)) s

/-- SLTIU: `(x[rs1] <u imm_I) ? 1 : 0`, the immediate sign-extended first (R502). -/
def execSltiu (rd rs1 : RegIdx) (imm : Word) (s : State) : Result :=
  writeResult rd (comparisonWord (ltUnsigned (s.readReg rs1) imm)) s

/-- XORI: `x[rs1] ^ imm_I` (R503). -/
def execXori (rd rs1 : RegIdx) (imm : Word) (s : State) : Result :=
  writeResult rd (s.readReg rs1 ^^^ imm) s

/-- ORI: `x[rs1] | imm_I` (R504). -/
def execOri (rd rs1 : RegIdx) (imm : Word) (s : State) : Result :=
  writeResult rd (s.readReg rs1 ||| imm) s

/-- ANDI: `x[rs1] & imm_I` (R505). -/
def execAndi (rd rs1 : RegIdx) (imm : Word) (s : State) : Result :=
  writeResult rd (s.readReg rs1 &&& imm) s

/-- SLLI: `x[rs1] << imm_I[4:0]` (R506). -/
def execSlli (rd rs1 : RegIdx) (shamt : BitVec 5) (s : State) : Result :=
  writeResult rd (shiftLeft (s.readReg rs1) (shiftOperand shamt)) s

/-- SRLI: `x[rs1] >>u imm_I[4:0]` (R507). -/
def execSrli (rd rs1 : RegIdx) (shamt : BitVec 5) (s : State) : Result :=
  writeResult rd (shiftRightLogical (s.readReg rs1) (shiftOperand shamt)) s

/-- SRAI: `x[rs1] >>s imm_I[4:0]` (R508). -/
def execSrai (rd rs1 : RegIdx) (shamt : BitVec 5) (s : State) : Result :=
  writeResult rd (shiftRightArithmetic (s.readReg rs1) (shiftOperand shamt)) s

end Sys2Proof.Machine
end

