-- ==== Sys2Proof/Machine/Jump.lean ====
section
/-! DEFINITION. Unconditional jumps (47_jump.md). -/

namespace Sys2Proof.Machine

/-- The link, then the jump: rd receives `pc + 4` and the pc the target, computed before either is written (R404, R760). -/
def linkAndJump (rd : RegIdx) (target : Word) (s : State) : Result :=
  .next ((s.writeReg rd s.nextPc).jumpTo target)

/-- The target of JAL: `pc + imm_J`, with bit 0 cleared only if `JAL_CLEARS_BIT0` says so (R750, R761). -/
def jalTarget (s : State) (imm : Word) : Word :=
  if s.cfg.jalClearsBit0 then clearBit0 (s.pcRelative imm) else s.pcRelative imm

/-- JAL (R750). -/
def execJal (rd : RegIdx) (imm : Word) (s : State) : Result := linkAndJump rd (jalTarget s imm) s

/-- JALR: the target is `x[rs1] + imm_I`, from the old `x[rs1]`, with bit 0 cleared (R751). -/
def execJalr (rd rs1 : RegIdx) (imm : Word) (s : State) : Result :=
  linkAndJump rd (clearBit0 (s.readReg rs1 + imm)) s

end Sys2Proof.Machine
end

