-- ==== Sys2Proof/Machine/Load.lean ====
section
/-! DEFINITION. Loads (43_load.md). -/

namespace Sys2Proof.Machine

/-- A load: the bytes at the effective address, extended, into rd. A failed read raises before rd is written, also when
rd is register 0 (R555, R560 to R562). -/
def loadInto (n : Nat) (extend : Word → Word) (rd rs1 : RegIdx) (imm : Word) (s : State) : Result :=
  match s.memRead (s.effectiveAddress rs1 imm) n with
  | .error e => raise e s
  | .ok v => writeResult rd (extend v) s

/-- LB: one byte, sign-extended (R550). -/
def execLb (rd rs1 : RegIdx) (imm : Word) (s : State) : Result := loadInto 1 (sext 8) rd rs1 imm s

/-- LH: two bytes, sign-extended (R551). -/
def execLh (rd rs1 : RegIdx) (imm : Word) (s : State) : Result := loadInto 2 (sext 16) rd rs1 imm s

/-- LW: four bytes; the word has register width and is not extended (R552). -/
def execLw (rd rs1 : RegIdx) (imm : Word) (s : State) : Result := loadInto 4 id rd rs1 imm s

/-- LBU: one byte, zero-extended (R553). -/
def execLbu (rd rs1 : RegIdx) (imm : Word) (s : State) : Result := loadInto 1 (zext 8) rd rs1 imm s

/-- LHU: two bytes, zero-extended (R554). -/
def execLhu (rd rs1 : RegIdx) (imm : Word) (s : State) : Result := loadInto 2 (zext 16) rd rs1 imm s

end Sys2Proof.Machine
end

