-- ==== Sys2Proof/Machine/RegisterRegister.lean ====
section
/-! DEFINITION. Register-register arithmetic, logic and shifts (41_register_register.md; R460). -/

namespace Sys2Proof.Machine

/-- ADD: `x[rd] <- x[rs1] + x[rs2]`, modulo 2^32 (R450). -/
def execAdd (rd rs1 rs2 : RegIdx) (s : State) : Result :=
  writeResult rd (s.readReg rs1 + s.readReg rs2) s

/-- SUB: `x[rd] <- x[rs1] - x[rs2]`, modulo 2^32 (R451). -/
def execSub (rd rs1 rs2 : RegIdx) (s : State) : Result :=
  writeResult rd (s.readReg rs1 - s.readReg rs2) s

/-- SLL: `x[rs1]` shifted left by the low 5 bits of `x[rs2]` (R452). -/
def execSll (rd rs1 rs2 : RegIdx) (s : State) : Result :=
  writeResult rd (shiftLeft (s.readReg rs1) (s.readReg rs2)) s

/-- SLT: `(x[rs1] <s x[rs2]) ? 1 : 0` (R453). -/
def execSlt (rd rs1 rs2 : RegIdx) (s : State) : Result :=
  writeResult rd (comparisonWord (ltSigned (s.readReg rs1) (s.readReg rs2))) s

/-- SLTU: `(x[rs1] <u x[rs2]) ? 1 : 0` (R454). -/
def execSltu (rd rs1 rs2 : RegIdx) (s : State) : Result :=
  writeResult rd (comparisonWord (ltUnsigned (s.readReg rs1) (s.readReg rs2))) s

/-- XOR: `x[rs1] ^ x[rs2]` (R455). -/
def execXor (rd rs1 rs2 : RegIdx) (s : State) : Result :=
  writeResult rd (s.readReg rs1 ^^^ s.readReg rs2) s

/-- SRL: `x[rs1]` shifted right by the low 5 bits of `x[rs2]`, filling with 0 (R456). -/
def execSrl (rd rs1 rs2 : RegIdx) (s : State) : Result :=
  writeResult rd (shiftRightLogical (s.readReg rs1) (s.readReg rs2)) s

/-- SRA: `x[rs1]` shifted right by the low 5 bits of `x[rs2]`, filling with its sign (R457). -/
def execSra (rd rs1 rs2 : RegIdx) (s : State) : Result :=
  writeResult rd (shiftRightArithmetic (s.readReg rs1) (s.readReg rs2)) s

/-- OR: `x[rs1] | x[rs2]` (R458). -/
def execOr (rd rs1 rs2 : RegIdx) (s : State) : Result :=
  writeResult rd (s.readReg rs1 ||| s.readReg rs2) s

/-- AND: `x[rs1] & x[rs2]` (R459). -/
def execAnd (rd rs1 rs2 : RegIdx) (s : State) : Result :=
  writeResult rd (s.readReg rs1 &&& s.readReg rs2) s

end Sys2Proof.Machine
end

