-- ==== Sys2Proof/Machine/Store.lean ====
section
/-! DEFINITION. Stores (44_store.md). -/

namespace Sys2Proof.Machine

/-- A store: the low bytes of `x[rs2]` at the effective address. A failed write raises and changes nothing (R610, R611). -/
def storeFrom (n : Nat) (rs1 rs2 : RegIdx) (imm : Word) (s : State) : Result :=
  match s.memWrite (s.effectiveAddress rs1 imm) n (s.readReg rs2) with
  | .error e => raise e s
  | .ok t => complete t

/-- SB: the low byte (R600). -/
def execSb (rs1 rs2 : RegIdx) (imm : Word) (s : State) : Result := storeFrom 1 rs1 rs2 imm s

/-- SH: the low two bytes (R601). -/
def execSh (rs1 rs2 : RegIdx) (imm : Word) (s : State) : Result := storeFrom 2 rs1 rs2 imm s

/-- SW: all four bytes (R602). -/
def execSw (rs1 rs2 : RegIdx) (imm : Word) (s : State) : Result := storeFrom 4 rs1 rs2 imm s

end Sys2Proof.Machine
end

