-- ==== Sys2Proof/Machine/Syscall.lean ====
section
/-! DEFINITION. The system-call layer that ECALL reaches (49_system.md section 1). -/

namespace Sys2Proof.Machine

/-- The eight system calls (R852). -/
inductive Syscall where
  | sbrk | readWord | readString | writeWord | writeString | writeWordErr | writeStringErr | exit
  deriving DecidableEq, Repr

/-- The system call a selector names, the whole word compared (R852). -/
def syscallOf (c : Config) (sel : Word) : Option Syscall :=
  if sel = c.sysSbrk then some .sbrk
  else if sel = c.sysReadWord then some .readWord
  else if sel = c.sysReadString then some .readString
  else if sel = c.sysWriteWord then some .writeWord
  else if sel = c.sysWriteString then some .writeString
  else if sel = c.sysWriteWordErr then some .writeWordErr
  else if sel = c.sysWriteStringErr then some .writeStringErr
  else if sel = c.sysExit then some .exit
  else none

/-- sbrk: a0 = 0 becomes `HEAP_START`, and any other a0 stays (R860). -/
def sbrkCall (s : State) : Result :=
  complete (if s.readReg regA0 = 0 then s.writeReg regA0 s.cfg.heapStart else s)

/-- read word: the oracle's word into a0, or InputError (R861). -/
def readWordCall (s : State) : Result :=
  match s.oracle.askWord with
  | (.fail, _) => raise .inputError s
  | (.ok v, o) => complete ({ s with oracle := o }.writeReg regA0 v)

/-- The end of a read string, once the oracle has answered: the length is checked before any byte is written (R864,
R1011). -/
def storeLine (p : Nat) (bs : List Byte) (o : Oracle) (s : State) : Result :=
  if s.mem.size < p + bs.length then raise (.hostBufferOverrun (s.readReg regA0) bs.length) s
  else complete { s with mem := s.mem.writeBytes p bs, oracle := o }

/-- read string: the pointer is checked, then the oracle asked, then the line written at a0 (R864, R1011). -/
def readStringCall (s : State) : Result :=
  match s.rawPointer (s.readReg regA0) with
  | .error e => raise e s
  | .ok p =>
    match s.oracle.askLine s.cfg.readStrMax with
    | (.fail, _) => raise .inputError s
    | (.ok bs, o) => storeLine p bs o s

/-- write word: a0 to a stream (R862, R863). -/
def writeWordCall (stream : Stream) (s : State) : Result := complete (s.emit stream (.word (s.readReg regA0)))

/-- write string: the bytes at a0 before the first NUL to a stream (R866, R867). -/
def writeStringCall (stream : Stream) (s : State) : Result :=
  match s.rawPointer (s.readReg regA0) with
  | .error e => raise e s
  | .ok p =>
    match s.mem.stringAt p (s.mem.size - p) with
    | none => raise (.unterminatedString (s.readReg regA0)) s
    | some bs => complete (s.emit stream (.bytes bs))

/-- exit: the whole a0 is the exit status (R868). -/
def exitCall (s : State) : Result := exitWith (s.readReg regA0) s

/-- Perform a system call (R860 to R868). -/
def performSyscall (k : Syscall) (s : State) : Result :=
  match k with
  | .sbrk => sbrkCall s
  | .readWord => readWordCall s
  | .readString => readStringCall s
  | .writeWord => writeWordCall .stdout s
  | .writeString => writeStringCall .stdout s
  | .writeWordErr => writeWordCall .stderr s
  | .writeStringErr => writeStringCall .stderr s
  | .exit => exitCall s

end Sys2Proof.Machine
end

