-- ==== Sys2Proof/Machine/System.lean ====
section
/-! DEFINITION. System instructions (49_system.md). -/

namespace Sys2Proof.Machine

/-- ECALL: the selector x17 is looked up first; an unrecognized one raises UnsupportedSyscall (R850, R865, R1011). -/
def execEcall (s : State) : Result :=
  match syscallOf s.cfg (s.readReg regA7) with
  | none => raise (.unsupportedSyscall (s.readReg regA7)) s
  | some k => performSyscall k s

/-- EBREAK: nothing but the advance (R899). -/
def execEbreak (s : State) : Result := complete s

/-- A CSR instruction: "accepted but not executed". No register is read or written, rd included, and no CSR exists; the
pc advances (R900). -/
def csrNoOp (s : State) : Result := complete s

/-- CSRRW (R901). -/
def execCsrrw (_rd _rs1 : RegIdx) (_csr : BitVec 12) (s : State) : Result := csrNoOp s

/-- CSRRS (R902). -/
def execCsrrs (_rd _rs1 : RegIdx) (_csr : BitVec 12) (s : State) : Result := csrNoOp s

/-- CSRRC (R903). -/
def execCsrrc (_rd _rs1 : RegIdx) (_csr : BitVec 12) (s : State) : Result := csrNoOp s

/-- CSRRWI (R904). -/
def execCsrrwi (_rd : RegIdx) (_uimm : BitVec 5) (_csr : BitVec 12) (s : State) : Result := csrNoOp s

/-- CSRRSI (R905). -/
def execCsrrsi (_rd : RegIdx) (_uimm : BitVec 5) (_csr : BitVec 12) (s : State) : Result := csrNoOp s

/-- CSRRCI (R906). -/
def execCsrrci (_rd : RegIdx) (_uimm : BitVec 5) (_csr : BitVec 12) (s : State) : Result := csrNoOp s

end Sys2Proof.Machine
end

