-- ==== Sys2Proof/Machine/UpperImmediate.lean ====
section
/-! DEFINITION. Upper-immediate instructions (46_upper_immediate.md; R710). -/

namespace Sys2Proof.Machine

/-- LUI: `x[rd] <- imm_U` (R700). -/
def execLui (rd : RegIdx) (imm : Word) (s : State) : Result := writeResult rd imm s

/-- AUIPC: `x[rd] <- pc + imm_U`, where pc is the address of the AUIPC itself (R701). -/
def execAuipc (rd : RegIdx) (imm : Word) (s : State) : Result := writeResult rd (s.pcRelative imm) s

end Sys2Proof.Machine
end

