-- ==== Sys2Proof/Machine/Cycle.lean ====
section
/-! DEFINITION. One fetch-decode-execute-advance cycle (40_pipeline.md): the execution of a decoded record, the forced
register 0, and the cycle of a running CORE. -/

namespace Sys2Proof.Machine

/-- Execute a record. An illegal one raises IllegalInstruction with its opcode group (R411); a pair of category and
mnemonic the table of R410 does not list raises Internal, and decode never produces one (R412). -/
def execute (r : Record) (s : State) : Result :=
  if r.category = .illegal then raise (.illegalInstruction r.group) s
  else
    match r.toInstr with
    | some i => exec i s
    | none => raise .internal s

/-- What follows a dispatch: register 0 is forced back to 0 (R422). A step that failed or exited ends at that point, so
the restore does not happen (R425, R868). -/
def afterDispatch (r : Result) : Result :=
  match r with
  | .next t => if t.status = .running then .next t.restoreX0 else .next t
  | .fault f => .fault f
  | .refused f => .refused f

/-- One cycle (R400). A failed fetch ends the step with nothing decoded or executed (R401). -/
def cycle (s : State) : Result :=
  match fetch s with
  | .error e => raise e s
  | .ok w => afterDispatch (execute (decode s.cfg w) s)

/-- A step is enabled only while the run status is `Running` (R121, R130, R400). -/
def stepWhenRunning (s : State) : Result :=
  match s.status with
  | .running => cycle s
  | .exited v => .fault (.runEnded (.exited v))
  | .faulted e => .fault (.runEnded (.faulted e))

/-- The state from which the next step fetches a given word: the word stands in memory at the pc, and the status is
`Running`. Where the four bytes at the pc do not lie in memory, the pc is 0 and memory at least four bytes long. -/
def placeWord (s : State) (w : Word) : State :=
  let t : State :=
    if s.mem.inBounds s.pc 4 then s
    else { s with pc := 0, mem := { s.mem with size := max s.mem.size 4 } }
  { t with status := .running, mem := t.mem.writeBytes t.pc.toNat (leBytes 4 w) }

end Sys2Proof.Machine
end

