-- ==== Sys2Proof/Machine/Step.lean ====
section
/-! DEFINITION. The step of the machine, and the state from which it runs a given opcode-table word. -/

namespace Sys2Proof.Machine

/-- `step()` (R130, R400). -/
def step (s : State) : Host.Outcome State Fault Refusal := stepWhenRunning s

/-- The state with an opcode-table word where the next step fetches. -/
def State.withFetchWord (s : State) (nbits w : Nat) : State := placeWord s (tableWord nbits w)

end Sys2Proof.Machine
end

