-- ==== Sys2Proof/Machine/Construct.lean ====
section
/-! DEFINITION. Construction, the reset of the CORE (70_reset_and_hazards.md). -/

namespace Sys2Proof.Machine

/-- The cells of the bytes of an image from an address up. -/
def cellsOfImage : Nat → List Byte → List Host.Cell
  | _, [] => []
  | a, b :: bs => if b = unlistedByte then cellsOfImage (a + 1) bs else (a, b) :: cellsOfImage (a + 1) bs

/-- The memory whose bytes are an image's, verbatim: `MEM_SIZE` is the image's length (R137, R1101). -/
def Memory.ofImage (image : List Byte) : Memory := { size := image.length, cells := cellsOfImage 0 image }

/-- `construct(image, pc0?, sp0?)` (R1100): the buffer obtained from the host becomes the memory; the initial PC and SP are
the host's if given, else `ENTRY_PC` and `STACK_TOP`; the other registers are `INIT_REGS`. The oracle is the model's own. -/
def construct (c : Config) (buf : Memory) (pc0 sp0 : Option Word) (oracle : Oracle) : State where
  cfg := c
  regs := (c.initRegs.set 0 0).set 2 (sp0.getD c.stackTop)
  pc := pc0.getD c.entryPc
  mem := buf
  status := .running
  trace := []
  oracle := oracle

end Sys2Proof.Machine
end

