-- ==== Sys2Proof/Machine/HostPort.lean ====
section
/-! DEFINITION. The host control port's accessors (10_state.md section 6). Each acts between two steps (R136), in any run
status (R121): a getter reads the state, and a setter changes what it writes and never the status. -/

namespace Sys2Proof.Machine

/-- `get_pc()` (R131). -/
def hostGetPc (s : State) : Word := s.pc

/-- `set_pc(v)`, with no alignment check (R131). -/
def hostSetPc (v : Word) (s : State) : State := { s with pc := v }

/-- `get_sp()`, a named accessor of register 2 (R132). -/
def hostGetSp (s : State) : Word := s.readReg regSp

/-- `set_sp(v)` (R132). -/
def hostSetSp (v : Word) (s : State) : State := s.writeReg regSp v

/-- `get_reg(i)`; none for an index outside 0 to 31, a call the host may not make (R133). -/
def hostGetReg (i : Nat) (s : State) : Option Word :=
  if h : i < 32 then some (s.readReg ⟨i, h⟩) else none

/-- `set_reg(i, v)`, discarded for register 0; refused for an index outside 0 to 31 (R133). -/
def hostSetReg (i : Nat) (v : Word) (s : State) : Result :=
  if h : i < 32 then .next (s.writeReg ⟨i, h⟩ v) else .refused (.hostRegisterIndex i)

/-- `get_regs()`: all 32 registers (R134). -/
def hostGetRegs (s : State) : Vector Word 32 := Vector.ofFn (fun i => s.readReg i)

/-- `set_regs(a)`: `x[i] <- a[i]` for every i, so `x[0]` stays 0 whatever `a[0]` is (R134). -/
def hostSetRegs (a : Vector Word 32) (s : State) : State := { s with regs := a.set 0 0 }

end Sys2Proof.Machine
end

