-- ==== Sys2Proof/Machine/Run.lean ====
section
/-! DEFINITION. A run: the steps the host's budget allows (R428). -/

namespace Sys2Proof.Machine

/-- The state a run from here ends in: at the first step that is not enabled, or when the budget of steps is used up
(R428). A run that ends with the budget is still `Running`. -/
def runFor : Nat → State → State
  | 0, s => s
  | n + 1, s =>
    match step s with
    | .next t => runFor n t
    | .fault _ => s
    | .refused _ => s

end Sys2Proof.Machine
end

