-- ==== Sys2Proof/Safety.lean ====
section
/-! DEFINITION. The terms claims are written in: what two states share, what a safe run is, and the invariant of the
machine. -/

namespace Sys2Proof.Machine

/-! ## What an instruction leaves as it was -/

/-- `MEM_SIZE` and every byte of memory are the same in both states. -/
def SameMemory (s t : State) : Prop :=
  t.mem.size = s.mem.size ∧ ∀ a : Nat, t.mem.readByte a = s.mem.readByte a

/-- `MEM_SIZE` and every byte of memory outside the n bytes from an address up are the same in both states. -/
def SameMemoryOutside (a n : Nat) (s t : State) : Prop :=
  t.mem.size = s.mem.size ∧ ∀ b : Nat, b < a ∨ a + n ≤ b → t.mem.readByte b = s.mem.readByte b

/-- Every register reads the same in both states. -/
def SameRegs (s t : State) : Prop := ∀ r : RegIdx, t.readReg r = s.readReg r

/-- The second state's registers are the first's after `x[rd] <- v`: rd reads as v, register 0 reads as 0 whatever rd is,
and every other register reads as before (R16). -/
def RegsAfterWrite (rd : RegIdx) (v : Word) (s t : State) : Prop :=
  (rd ≠ 0 → t.readReg rd = v) ∧ t.readReg 0 = 0 ∧ ∀ r : RegIdx, r ≠ rd → t.readReg r = s.readReg r

/-- The parameters, the run status, the trace and the oracle are the same in both states. -/
def SameRest (s t : State) : Prop :=
  t.cfg = s.cfg ∧ t.status = s.status ∧ t.trace = s.trace ∧ t.oracle = s.oracle

/-- The state with the run status `Faulted(E, info)` and nothing else changed (R1021). -/
def FaultedFrom (s : State) (e : ErrorKind) : State := { s with status := .faulted e }

/-- An instruction answers a next state, and that state meets a property. -/
def Completes (i : Instr) (s : State) (p : State → Prop) : Prop := ∃ t, exec i s = .next t ∧ p t

/-- An instruction that computes a value from the state and writes it to rd: from every state it completes, rd is written,
the pc advances by 4, and nothing else changes. -/
def ComputesInto (i : Instr) (rd : RegIdx) (value : State → Word) : Prop :=
  ∀ s, Completes i s (fun t =>
    RegsAfterWrite rd (value s) s t ∧ t.pc = s.pc + 4 ∧ SameMemory s t ∧ SameRest s t)

/-- An instruction that does nothing but advance the pc by 4. -/
def OnlyAdvances (i : Instr) : Prop :=
  ∀ s, Completes i s (fun t => SameRegs s t ∧ t.pc = s.pc + 4 ∧ SameMemory s t ∧ SameRest s t)

/-- The instruction's word matches a row of the opcode table: its bits under the mask are the match value, whatever the
parameters are. -/
def Matches (i : Instr) (mask value : Word) : Prop := ∀ c : Config, encode c i &&& mask = value

/-- The word of the instruction carries its immediate operand: read in the instruction's format (R326), the word's immediate
is the operand, for every operand the format can hold. -/
def CarriesImmediate (i : Instr) (f : Format) (imm : Word) : Prop :=
  i.wellFormed = true → ∀ c : Config, immOf f (encode c i) = imm

/-- The unsigned number the n bytes from an address up hold, the byte at the lowest address least significant (R202). -/
def byteSum (m : Memory) (a : Nat) : Nat → Nat
  | 0 => 0
  | n + 1 => (m.readByte a).toNat + 256 * byteSum m (a + 1) n

/-! ## Which register an instruction writes (R105, R106) -/

/-- The register named by rd, of an instruction that writes it (R105); x10 for ECALL (R106). -/
def destination : Instr → Option RegIdx
  | .add rd _ _ | .sub rd _ _ | .sll rd _ _ | .slt rd _ _ | .sltu rd _ _ => some rd
  | .xor rd _ _ | .srl rd _ _ | .sra rd _ _ | .or rd _ _ | .and rd _ _ => some rd
  | .addi rd _ _ | .slti rd _ _ | .sltiu rd _ _ | .xori rd _ _ | .ori rd _ _ | .andi rd _ _ => some rd
  | .slli rd _ _ | .srli rd _ _ | .srai rd _ _ => some rd
  | .lb rd _ _ | .lh rd _ _ | .lw rd _ _ | .lbu rd _ _ | .lhu rd _ _ => some rd
  | .lui rd _ | .auipc rd _ | .jal rd _ | .jalr rd _ _ => some rd
  | .ecall => some regA0
  | .sb _ _ _ | .sh _ _ _ | .sw _ _ _ => none
  | .beq _ _ _ | .bne _ _ _ | .blt _ _ _ | .bge _ _ _ | .bltu _ _ _ | .bgeu _ _ _ => none
  | .fence | .fenceI | .ebreak => none
  | .csrrw _ _ _ | .csrrs _ _ _ | .csrrc _ _ _ | .csrrwi _ _ _ | .csrrsi _ _ _ | .csrrci _ _ _ => none

/-- The instruction is a store, the one kind of instruction but ECALL that writes memory (R221). -/
def isStore : Instr → Bool
  | .sb _ _ _ | .sh _ _ _ | .sw _ _ _ => true
  | .add _ _ _ | .sub _ _ _ | .sll _ _ _ | .slt _ _ _ | .sltu _ _ _ => false
  | .xor _ _ _ | .srl _ _ _ | .sra _ _ _ | .or _ _ _ | .and _ _ _ => false
  | .addi _ _ _ | .slti _ _ _ | .sltiu _ _ _ | .xori _ _ _ | .ori _ _ _ | .andi _ _ _ => false
  | .slli _ _ _ | .srli _ _ _ | .srai _ _ _ => false
  | .lb _ _ _ | .lh _ _ _ | .lw _ _ _ | .lbu _ _ _ | .lhu _ _ _ => false
  | .beq _ _ _ | .bne _ _ _ | .blt _ _ _ | .bge _ _ _ | .bltu _ _ _ | .bgeu _ _ _ => false
  | .lui _ _ | .auipc _ _ | .jal _ _ | .jalr _ _ _ => false
  | .fence | .fenceI | .ecall | .ebreak => false
  | .csrrw _ _ _ | .csrrs _ _ _ | .csrrc _ _ _ | .csrrwi _ _ _ | .csrrsi _ _ _ | .csrrci _ _ _ => false

/-! ## The invariant and safe runs -/

/-- The stored register 0 is 0 (R102, R422), the memory is in canonical form and of a legal size (R10), and the parameters
are legal (R11, R337). -/
abbrev State.Inv (s : State) : Prop := s.regs[0] = 0 ∧ s.mem.wf ∧ s.cfg.wf

/-- A state some number of steps leads to. -/
inductive Reaches : State → State → Prop where
  | refl (s : State) : Reaches s s
  | step {s t u : State} (first : Sys2Proof.Machine.step s = .next t) (rest : Reaches t u) : Reaches s u

/-- A run is safe if no state it reaches is `Faulted`. -/
def SafeRun (s : State) : Prop := ∀ t, Reaches s t → ∀ e, t.status ≠ .faulted e

end Sys2Proof.Machine
end

