-- ==== Sys2Proof/Certificates/Slice0/Obligations.lean ====
section
/-! DEFINITION. The statements about the model, from the numbered rules of the spec. -/

open Sys2Proof Sys2Proof.Machine

/-! ## Encoding and decoding -/

/-- Words the spec writes out, for every family, decode to the instructions it says they are (R450 to R906). -/
def Obligations.SpecWordsDecode : Prop :=
  decodeInstr defaultConfig 0x007302B3 = some (.add 5 6 7) ∧
  decodeInstr defaultConfig 0x407352B3 = some (.sra 5 6 7) ∧
  decodeInstr defaultConfig 0x80030293 = some (.addi 5 6 0xFFFFF800) ∧
  decodeInstr defaultConfig 0x41F35293 = some (.srai 5 6 31) ∧
  decodeInstr defaultConfig 0xFFC32283 = some (.lw 5 6 0xFFFFFFFC) ∧
  decodeInstr defaultConfig 0xFE730FA3 = some (.sb 6 7 0xFFFFFFFF) ∧
  decodeInstr defaultConfig 0xFE000CE3 = some (.beq 0 0 0xFFFFFFF8) ∧
  decodeInstr defaultConfig 0x123450B7 = some (.lui 1 0x12345000) ∧
  decodeInstr defaultConfig 0xF01FF06F = some (.jal 0 0xFFFFFF00) ∧
  decodeInstr defaultConfig 0x004300E7 = some (.jalr 1 6 4) ∧
  decodeInstr defaultConfig 0x0FF0000F = some .fence ∧
  decodeInstr defaultConfig 0x0000100F = some .fenceI ∧
  decodeInstr defaultConfig 0x00000073 = some .ecall ∧
  decodeInstr defaultConfig 0x00100073 = some .ebreak ∧
  decodeInstr defaultConfig 0x300312F3 = some (.csrrw 5 6 0x300) ∧
  decodeInstr defaultConfig 0x340FD2F3 = some (.csrrwi 5 31 0x340)

/-- Decoding the word of a well-formed instruction gives the instruction back, for every instruction, every operand and
every legal value of the parameters (R310 to R338). -/
def Obligations.DecodeOfEncode : Prop :=
  ∀ (c : Config) (i : Instr), c.wf → i.wellFormed = true → decodeInstr c (encode c i) = some i

/-- A word has at most one meaning: a word that decodes to an instruction is the word of that instruction, and no bit of
it is lost (R343, R351). Its immediate lies in the range R322 gives its format. The parameters may be anything. -/
def Obligations.EncodeOfDecode : Prop :=
  ∀ (c : Config) (w : Word) (i : Instr), decodeInstr c w = some i → encode c i = w ∧ i.wellFormed = true

/-- The six fixed fields stand in the record of every word, whatever its opcode (R301). -/
def Obligations.FixedFieldsOfEveryWord : Prop :=
  ∀ (c : Config) (w : Word),
    (decode c w).group.toNat = w.toNat % 2 ^ 7 ∧
    (decode c w).rd.val = w.toNat / 2 ^ 7 % 2 ^ 5 ∧
    (decode c w).funct3.toNat = w.toNat / 2 ^ 12 % 2 ^ 3 ∧
    (decode c w).rs1.val = w.toNat / 2 ^ 15 % 2 ^ 5 ∧
    (decode c w).rs2.val = w.toNat / 2 ^ 20 % 2 ^ 5 ∧
    (decode c w).funct7.toNat = w.toNat / 2 ^ 25

/-- The immediate of each format as a number built from the word's bits: the sign bit's negative weight and the weights of
the other pieces (R321). -/
def Obligations.ImmediateLayouts : Prop :=
  ∀ w : Word,
    (immOf .i w).toInt = -2048 * (w.toNat / 2 ^ 31 : Nat) + (w.toNat / 2 ^ 20 % 2 ^ 11 : Nat) ∧
    (immOf .s w).toInt =
      -2048 * (w.toNat / 2 ^ 31 : Nat) + 32 * (w.toNat / 2 ^ 25 % 2 ^ 6 : Nat) + (w.toNat / 2 ^ 7 % 2 ^ 5 : Nat) ∧
    (immOf .b w).toInt =
      -4096 * (w.toNat / 2 ^ 31 : Nat) + 2048 * (w.toNat / 2 ^ 7 % 2 : Nat) + 32 * (w.toNat / 2 ^ 25 % 2 ^ 6 : Nat)
        + 2 * (w.toNat / 2 ^ 8 % 2 ^ 4 : Nat) ∧
    (immOf .u w).toNat = w.toNat / 2 ^ 12 * 2 ^ 12 ∧
    (immOf .j w).toInt =
      -1048576 * (w.toNat / 2 ^ 31 : Nat) + 4096 * (w.toNat / 2 ^ 12 % 2 ^ 8 : Nat)
        + 2048 * (w.toNat / 2 ^ 20 % 2 : Nat) + 2 * (w.toNat / 2 ^ 21 % 2 ^ 10 : Nat) ∧
    immOf .r w = 0 ∧ immOf .none w = 0

/-- The illegal space is exactly the nine items of R350. -/
def Obligations.IllegalSpaceIsExact : Prop :=
  ∀ (c : Config) (w : Word),
    let g := w.toNat % 128
    let f3 := w.toNat / 2 ^ 12 % 8
    let f7 := w.toNat / 2 ^ 25
    (decode c w).category = .illegal ↔
      g ∉ [0x03, 0x0F, 0x13, 0x17, 0x23, 0x33, 0x37, 0x63, 0x67, 0x6F, 0x73] ∨
      (g = 0x33 ∧ ¬ (f7 = 0 ∨ (f7 = 32 ∧ (f3 = 0 ∨ f3 = 5)))) ∨
      (g = 0x13 ∧ ((f3 = 1 ∧ f7 ≠ 0) ∨ (f3 = 5 ∧ f7 ≠ 0 ∧ f7 ≠ 32))) ∨
      (g = 0x03 ∧ (f3 = 3 ∨ f3 = 6 ∨ f3 = 7)) ∨
      (g = 0x23 ∧ 3 ≤ f3) ∨
      (g = 0x63 ∧ (f3 = 2 ∨ f3 = 3)) ∨
      (g = 0x67 ∧ f3 ≠ 0) ∨
      (g = 0x0F ∧ w ≠ c.fenceWord ∧ w ≠ c.fenceIWord) ∨
      (g = 0x73 ∧ ((f3 = 0 ∧ w ≠ 0x00000073 ∧ w ≠ 0x00100073) ∨ f3 = 4))

/-- A word is an instruction exactly when its category is not illegal, so no word's execution raises Internal (R412). -/
def Obligations.DecodeNeverReachesInternal : Prop :=
  ∀ (c : Config) (w : Word),
    ((decode c w).category ≠ .illegal ↔ ∃ i, decodeInstr c w = some i) ∧
    ∀ s t : State, s.status = .running → execute (decode c w) s = .next t → t.status ≠ .faulted .internal

/-- The bit-mask utility: bits left down to right are set and no others; a bound not below the width gives 0 (R20). -/
def Obligations.BitMaskBits : Prop :=
  ∀ width left right : Nat,
    ((width ≤ left ∨ width ≤ right) → bitMask width left right = 0) ∧
    (right ≤ left → left < width → ∀ k : Nat, (bitMask width left right).getLsbD k = decide (right ≤ k ∧ k ≤ left))

/-! ## Memory -/

/-- The bounds check: an access of n bytes fails, with AddressOutOfBounds(addr, n), exactly when addr + n exceeds
`MEM_SIZE`, the sum taken as integers (R201, R203). -/
def Obligations.BoundsCheckOfEveryAccess : Prop :=
  ∀ (s : State) (addr v : Word) (n : Nat), n ∈ [1, 2, 4] →
    (s.mem.size < addr.toNat + n →
      s.memRead addr n = .error (.addressOutOfBounds addr n) ∧
      s.memWrite addr n v = .error (.addressOutOfBounds addr n)) ∧
    (addr.toNat + n ≤ s.mem.size → (∃ u, s.memRead addr n = .ok u) ∧ ∃ t, s.memWrite addr n v = .ok t)

/-- A read fails the bounds check, or gives the n bytes from the address up, the byte at the lowest address least
significant, as an unsigned number of 8n bits (R202). -/
def Obligations.ReadIsLittleEndianSum : Prop :=
  ∀ (s : State) (addr : Word) (n : Nat), n ∈ [1, 2, 4] →
    (s.mem.size < addr.toNat + n → s.memRead addr n = .error (.addressOutOfBounds addr n)) ∧
    (addr.toNat + n ≤ s.mem.size →
      ∃ u, s.memRead addr n = .ok u ∧ u.toNat = byteSum s.mem addr.toNat n ∧ u.toNat < 2 ^ (8 * n))

/-- A write fails the bounds check, or puts bits 8k+7 to 8k of the value at address addr + k for each k below n, and changes
no other byte and nothing else (R204). -/
def Obligations.WritePutsLittleEndianBytes : Prop :=
  ∀ (s : State) (addr v : Word) (n : Nat), n ∈ [1, 2, 4] →
    (s.mem.size < addr.toNat + n → s.memWrite addr n v = .error (.addressOutOfBounds addr n)) ∧
    (addr.toNat + n ≤ s.mem.size →
      ∃ t, s.memWrite addr n v = .ok t ∧
        (∀ k : Nat, k < n → t.mem.readByte (addr.toNat + k) = v.extractLsb' (8 * k) 8) ∧
        SameMemoryOutside addr.toNat n s t ∧ SameRegs s t ∧ t.pc = s.pc ∧ SameRest s t)

/-- A word stored is the word then loaded from the same address, and narrower reads inside it see its bytes (R209, R210). -/
def Obligations.LoadAfterStoreAndMixedWidths : Prop :=
  ∀ (s t : State) (addr v : Word), s.memWrite addr 4 v = .ok t →
    t.memRead addr 4 = .ok v ∧
    t.memRead addr 1 = .ok (BitVec.ofNat 32 (v.toNat % 2 ^ 8)) ∧
    (addr.toNat + 4 ≤ 2 ^ 32 → t.memRead (addr + 1) 2 = .ok (BitVec.ofNat 32 (v.toNat / 2 ^ 8 % 2 ^ 16)))

/-- The search of a write string: the answer is the bytes before the least k whose byte is NUL, and there is none exactly
when no byte of the n is NUL (R866). -/
def Obligations.StringEndsAtFirstNul : Prop :=
  ∀ (m : Memory) (a n : Nat),
    (∀ bs, m.stringAt a n = some bs →
      bs.length < n ∧ m.readByte (a + bs.length) = 0 ∧
      ∀ k : Nat, k < bs.length → bs[k]? = some (m.readByte (a + k)) ∧ m.readByte (a + k) ≠ 0) ∧
    (m.stringAt a n = none ↔ ∀ k : Nat, k < n → m.readByte (a + k) ≠ 0)

/-- The image's bytes are the memory, verbatim: its length is `MEM_SIZE`, byte k is at address k, and the memory is in
canonical form (R137, R1101). -/
def Obligations.ImageIsMemoryVerbatim : Prop :=
  ∀ image : List Byte,
    (Memory.ofImage image).size = image.length ∧
    (∀ k : Nat, k < image.length → image[k]? = some ((Memory.ofImage image).readByte k)) ∧
    (image.length ≤ 2 ^ 32 → (Memory.ofImage image).wf)

/-! ## Registers, reset and the host port -/

/-- Register 0 reads 0, for an instruction and for the host; a write to it, by an instruction or by a host setter, is
discarded (R101, R102); and a step that leaves the CORE running leaves the stored register 0 at 0, whatever was stored
before. -/
def Obligations.RegisterZeroReadsZero : Prop :=
  ∀ (s : State) (v : Word) (a : Vector Word 32),
    s.readReg 0 = 0 ∧ hostGetReg 0 s = some 0 ∧ (hostGetRegs s)[0] = 0 ∧
    s.writeReg 0 v = s ∧ hostSetReg 0 v s = .next s ∧ (hostSetRegs a s).readReg 0 = 0 ∧
    ∀ t, step s = .next t → t.status = .running → t.regs[0] = 0

/-- The host control port's accessors (R131, R132, R134), and single registers (R133). The clause on an index above 31 is
the model's choice, log entry 13 (DEDUCED from D33, which calls such a call a host refusal and no error of the CORE): the
getter gives none and the setter is refused. -/
def Obligations.HostPortAccessors : Prop :=
  ∀ (s : State) (v : Word) (a : Vector Word 32),
    (hostGetPc s = s.pc ∧ hostGetPc (hostSetPc v s) = v ∧ SameRegs s (hostSetPc v s) ∧ SameMemory s (hostSetPc v s) ∧
      SameRest s (hostSetPc v s)) ∧
    (hostGetSp s = s.readReg 2 ∧ RegsAfterWrite 2 v s (hostSetSp v s) ∧ (hostSetSp v s).pc = s.pc ∧
      SameMemory s (hostSetSp v s) ∧ SameRest s (hostSetSp v s)) ∧
    (∀ i : RegIdx, hostGetReg i.val s = some (s.readReg i) ∧
      ∃ t, hostSetReg i.val v s = .next t ∧ RegsAfterWrite i v s t ∧ t.pc = s.pc ∧ SameMemory s t ∧ SameRest s t) ∧
    (∀ i : Nat, 32 ≤ i → hostGetReg i s = none ∧ hostSetReg i v s = .refused (.hostRegisterIndex i)) ∧
    (∀ i : RegIdx, (hostGetRegs s)[i] = s.readReg i ∧
      (hostSetRegs a s).readReg i = if i = 0 then 0 else a[i]) ∧
    ((hostSetRegs a s).pc = s.pc ∧ SameMemory s (hostSetRegs a s) ∧ SameRest s (hostSetRegs a s))

/-- The state after construction: the memory is the image's bytes, pc, sp and the other registers come from the host's
overrides or the parameters, the status is Running and the trace empty (R1100). -/
def Obligations.ConstructionState : Prop :=
  ∀ (c : Config) (image : List Byte) (pc0 sp0 : Option Word) (o : Oracle),
    let s := construct c (Memory.ofImage image) pc0 sp0 o
    s.mem.size = image.length ∧ (∀ k : Nat, k < image.length → image[k]? = some (s.mem.readByte k)) ∧
    s.readReg 0 = 0 ∧ s.regs[0] = 0 ∧ s.readReg 2 = sp0.getD c.stackTop ∧
    (∀ i : RegIdx, i ≠ 0 → i ≠ 2 → s.readReg i = c.initRegs[i]) ∧
    s.pc = pc0.getD c.entryPc ∧ s.status = .running ∧ s.trace = [] ∧ s.cfg = c

/-- The reset state is a construction with no override from the host, whose parameters and image are the model's choice
(log entries 1 to 4), and it meets the invariant. -/
def Obligations.ResetMeetsInvariant : Prop :=
  State.reset.Inv ∧
  State.reset = construct defaultConfig { size := defaultMemSize, cells := [] } none none
    { words := [], lines := [], asked := 0 }

/-! ## The step -/

/-- A step fetches the word at the pc, decodes it, and runs the instruction's meaning; then it forces register 0 to 0 if
the run goes on. Nothing else stands around the meaning (R400, R422). -/
def Obligations.StepRunsTheDecodedInstruction : Prop :=
  ∀ (s : State) (w : Word) (i : Instr),
    s.status = .running → s.memRead s.pc 4 = .ok w → decodeInstr s.cfg w = some i →
    ∀ t, exec i s = .next t → step s = .next (if t.status = .running then t.restoreX0 else t)

/-- A fetch past the end of memory ends the step with AddressOutOfBounds(pc, 4) and nothing else changed (R401). -/
def Obligations.FetchOutOfBoundsFaults : Prop :=
  ∀ s : State, s.status = .running → s.mem.size < s.pc.toNat + 4 →
    step s = .next (FaultedFrom s (.addressOutOfBounds s.pc 4))

/-- The execution of an illegal record raises IllegalInstruction with its opcode group, and changes no register, memory byte
or pc; so a step at an illegal word ends that way (R411). -/
def Obligations.IllegalWordFaults : Prop :=
  ∀ s : State,
    (∀ r : Record, r.category = .illegal → execute r s = .next (FaultedFrom s (.illegalInstruction r.group))) ∧
    ∀ w : Word, s.status = .running → s.memRead s.pc 4 = .ok w → (decode s.cfg w).category = .illegal →
      step s = .next (FaultedFrom s (.illegalInstruction (w.extractLsb' 0 7)))

/-- A CORE whose status is not Running takes no step, and a run from it stays where it is (R121, R1022). -/
def Obligations.EndedRunTakesNoStep : Prop :=
  ∀ s : State, s.status ≠ .running → step s = .fault (.runEnded s.status) ∧ ∀ n, runFor n s = s

/-- A failed step changes only the status (R425): faults are precise (R1021). -/
def Obligations.FailedStepChangesOnlyStatus : Prop :=
  ∀ (s t : State) (e : ErrorKind), step s = .next t → t.status = .faulted e → t = FaultedFrom s e

/-- A step ends with Exited(v) only by an ECALL whose selector is `SYS_EXIT`, with v the whole of a0, and then the status
is all that changes (R423, R868). -/
def Obligations.ExitOnlyByExitCall : Prop :=
  ∀ (s t : State) (v : Word), step s = .next t → t.status = .exited v →
    s.memRead s.pc 4 = .ok 0x00000073 ∧ syscallOf s.cfg (s.readReg 17) = some .exit ∧ v = s.readReg 10 ∧
    t = { s with status := .exited v }

/-- Every step that answers a next state keeps the invariant: the stored register 0 is 0, the memory is in canonical form
and of a legal size, and the parameters are legal (R102, R422, R10, R11). -/
def Obligations.StepKeepsInvariant : Prop :=
  ∀ s t : State, s.Inv → step s = .next t → t.Inv

/-- Along every run, from every state that meets the invariant, the invariant holds, the parameters and `MEM_SIZE` stay
what they were, and the trace only grows (R10, R122, R877). -/
def Obligations.RunsKeepInvariantAndGrowTrace : Prop :=
  ∀ s t : State, s.Inv → Reaches s t →
    t.Inv ∧ t.cfg = s.cfg ∧ t.mem.size = s.mem.size ∧ ∃ more, t.trace = s.trace ++ more

/-- A faulted state that a run reaches is a running state that the run reaches with the status changed: the failing
instruction left no other mark (R1021). -/
def Obligations.ReachedFaultsArePrecise : Prop :=
  ∀ (s t : State) (e : ErrorKind), s.status = .running → Reaches s t → t.status = .faulted e →
    ∃ u, Reaches s u ∧ u.status = .running ∧ step u = .next t ∧ t = FaultedFrom u e

/-- An even pc stays even (R114). -/
def Obligations.StepKeepsPcEven : Prop :=
  ∀ s t : State, s.pc.toNat % 2 = 0 → step s = .next t → t.pc.toNat % 2 = 0

/-- A store into the bytes of the next instruction is what the next fetch reads: no fence is needed (R223). -/
def Obligations.FetchSeesEarlierStore : Prop :=
  ∀ (s t : State) (w : Word), s.memWrite s.pc 4 w = .ok t → fetch t = .ok w

/-- The word placed by `State.withFetchWord` is the word the next step fetches, from every state; where the pc lies in
memory, the pc, the registers and the bytes outside the word are as they were. -/
def Obligations.PlacedWordIsFetched : Prop :=
  ∀ (s : State) (w : Nat), w < 2 ^ 32 →
    fetch (s.withFetchWord 32 w) = .ok (BitVec.ofNat 32 w) ∧ (s.withFetchWord 32 w).status = .running ∧
    (s.pc.toNat + 4 ≤ s.mem.size →
      (s.withFetchWord 32 w).pc = s.pc ∧ SameRegs s (s.withFetchWord 32 w) ∧
      SameMemoryOutside s.pc.toNat 4 s (s.withFetchWord 32 w))

/-! ## Whole-machine rules about instructions -/

/-- Every instruction answers a next state from every state, and every step of a running CORE does: an error is a next
state whose status says so (R1020). -/
def Obligations.EveryInstructionAnswersNext : Prop :=
  (∀ (i : Instr) (s : State), ∃ t, exec i s = .next t) ∧ ∀ s : State, s.status = .running → ∃ t, step s = .next t

/-- An instruction writes at most the register R105 and R106 give it: rd of the instructions that have one and write it,
x10 for ECALL, and that for the sbrk and read-word calls only; none for stores, branches, fences, EBREAK and the CSR
instructions. -/
def Obligations.OnlyTheDestinationIsWritten : Prop :=
  ∀ (i : Instr) (s t : State), exec i s = .next t →
    (∀ r : RegIdx, destination i ≠ some r → t.readReg r = s.readReg r) ∧
    (i = .ecall → syscallOf s.cfg (s.readReg 17) ≠ some .sbrk → syscallOf s.cfg (s.readReg 17) ≠ some .readWord →
      SameRegs s t)

/-- Memory is written by stores and by the read-string call, and by nothing else (R221). -/
def Obligations.OnlyStoresAndReadStringWriteMemory : Prop :=
  ∀ (i : Instr) (s t : State), exec i s = .next t → isStore i = false →
    (i = .ecall → syscallOf s.cfg (s.readReg 17) ≠ some .readString) → t.mem = s.mem

/-- The trace, the oracle and an exit are ECALL's alone, and no instruction changes the parameters (R1032). -/
def Obligations.OnlyEcallReachesTheHost : Prop :=
  ∀ (i : Instr) (s t : State), exec i s = .next t →
    t.cfg = s.cfg ∧
    (i ≠ .ecall → t.trace = s.trace ∧ t.oracle = s.oracle ∧ (t.status = s.status ∨ ∃ e, t.status = .faulted e))

/-! ## Register-register instructions -/

/-- ADD and SUB: sum and difference modulo 2^32, with the encodings of their rows (R450, R451). -/
def Obligations.AddSubResults : Prop :=
  ∀ rd rs1 rs2 : RegIdx,
    (Matches (.add rd rs1 rs2) 0xFE00707F 0x00000033 ∧
      ComputesInto (.add rd rs1 rs2) rd (fun s => BitVec.ofNat 32 ((s.readReg rs1).toNat + (s.readReg rs2).toNat))) ∧
    (Matches (.sub rd rs1 rs2) 0xFE00707F 0x40000033 ∧
      ComputesInto (.sub rd rs1 rs2) rd
        (fun s => BitVec.ofInt 32 ((s.readReg rs1).toNat - (s.readReg rs2).toNat : Int)))

/-- SLL, SRL and SRA: multiplication by, and division rounded down by, 2 to the low 5 bits of `x[rs2]`, SRA of the signed
value (R452, R456, R457). -/
def Obligations.ShiftResults : Prop :=
  ∀ rd rs1 rs2 : RegIdx,
    (Matches (.sll rd rs1 rs2) 0xFE00707F 0x00001033 ∧
      ComputesInto (.sll rd rs1 rs2) rd
        (fun s => BitVec.ofNat 32 ((s.readReg rs1).toNat * 2 ^ ((s.readReg rs2).toNat % 32)))) ∧
    (Matches (.srl rd rs1 rs2) 0xFE00707F 0x00005033 ∧
      ComputesInto (.srl rd rs1 rs2) rd
        (fun s => BitVec.ofNat 32 ((s.readReg rs1).toNat / 2 ^ ((s.readReg rs2).toNat % 32)))) ∧
    (Matches (.sra rd rs1 rs2) 0xFE00707F 0x40005033 ∧
      ComputesInto (.sra rd rs1 rs2) rd
        (fun s => BitVec.ofInt 32 ((s.readReg rs1).toInt / 2 ^ ((s.readReg rs2).toNat % 32))))

/-- SLT and SLTU: 1 if less, else 0; SLT compares signed, SLTU unsigned (R453, R454). -/
def Obligations.SetLessThanResults : Prop :=
  ∀ rd rs1 rs2 : RegIdx,
    (Matches (.slt rd rs1 rs2) 0xFE00707F 0x00002033 ∧
      ComputesInto (.slt rd rs1 rs2) rd (fun s => if (s.readReg rs1).toInt < (s.readReg rs2).toInt then 1 else 0)) ∧
    (Matches (.sltu rd rs1 rs2) 0xFE00707F 0x00003033 ∧
      ComputesInto (.sltu rd rs1 rs2) rd (fun s => if (s.readReg rs1).toNat < (s.readReg rs2).toNat then 1 else 0))

/-- XOR, OR and AND, bit by bit (R455, R458, R459). -/
def Obligations.LogicResults : Prop :=
  ∀ rd rs1 rs2 : RegIdx,
    (Matches (.xor rd rs1 rs2) 0xFE00707F 0x00004033 ∧
      ComputesInto (.xor rd rs1 rs2) rd (fun s => s.readReg rs1 ^^^ s.readReg rs2)) ∧
    (Matches (.or rd rs1 rs2) 0xFE00707F 0x00006033 ∧
      ComputesInto (.or rd rs1 rs2) rd (fun s => s.readReg rs1 ||| s.readReg rs2)) ∧
    (Matches (.and rd rs1 rs2) 0xFE00707F 0x00007033 ∧
      ComputesInto (.and rd rs1 rs2) rd (fun s => s.readReg rs1 &&& s.readReg rs2))

/-! ## Immediate instructions -/

/-- ADDI, SLTI and SLTIU (R500, R501, R502). The immediate is the sign-extended word, which SLTIU compares unsigned. -/
def Obligations.ImmediateArithmeticResults : Prop :=
  ∀ (rd rs1 : RegIdx) (imm : Word),
    (Matches (.addi rd rs1 imm) 0x0000707F 0x00000013 ∧
      CarriesImmediate (.addi rd rs1 imm) .i imm ∧
      ComputesInto (.addi rd rs1 imm) rd (fun s => BitVec.ofInt 32 ((s.readReg rs1).toNat + imm.toInt))) ∧
    (Matches (.slti rd rs1 imm) 0x0000707F 0x00002013 ∧
      CarriesImmediate (.slti rd rs1 imm) .i imm ∧
      ComputesInto (.slti rd rs1 imm) rd (fun s => if (s.readReg rs1).toInt < imm.toInt then 1 else 0)) ∧
    (Matches (.sltiu rd rs1 imm) 0x0000707F 0x00003013 ∧
      CarriesImmediate (.sltiu rd rs1 imm) .i imm ∧
      ComputesInto (.sltiu rd rs1 imm) rd (fun s => if (s.readReg rs1).toNat < imm.toNat then 1 else 0))

/-- XORI, ORI and ANDI (R503, R504, R505). -/
def Obligations.ImmediateLogicResults : Prop :=
  ∀ (rd rs1 : RegIdx) (imm : Word),
    (Matches (.xori rd rs1 imm) 0x0000707F 0x00004013 ∧
      CarriesImmediate (.xori rd rs1 imm) .i imm ∧
      ComputesInto (.xori rd rs1 imm) rd (fun s => s.readReg rs1 ^^^ imm)) ∧
    (Matches (.ori rd rs1 imm) 0x0000707F 0x00006013 ∧
      CarriesImmediate (.ori rd rs1 imm) .i imm ∧
      ComputesInto (.ori rd rs1 imm) rd (fun s => s.readReg rs1 ||| imm)) ∧
    (Matches (.andi rd rs1 imm) 0x0000707F 0x00007013 ∧
      CarriesImmediate (.andi rd rs1 imm) .i imm ∧
      ComputesInto (.andi rd rs1 imm) rd (fun s => s.readReg rs1 &&& imm))

/-- SLLI, SRLI and SRAI: the shift amount is the shamt field (R324, R506, R507, R508). -/
def Obligations.ImmediateShiftResults : Prop :=
  ∀ (rd rs1 : RegIdx) (shamt : BitVec 5),
    (Matches (.slli rd rs1 shamt) 0xFE00707F 0x00001013 ∧
      (∀ c : Config, (immOf .i (encode c (.slli rd rs1 shamt))).setWidth 5 = shamt) ∧
      ComputesInto (.slli rd rs1 shamt) rd (fun s => BitVec.ofNat 32 ((s.readReg rs1).toNat * 2 ^ shamt.toNat))) ∧
    (Matches (.srli rd rs1 shamt) 0xFE00707F 0x00005013 ∧
      (∀ c : Config, (immOf .i (encode c (.srli rd rs1 shamt))).setWidth 5 = shamt) ∧
      ComputesInto (.srli rd rs1 shamt) rd (fun s => BitVec.ofNat 32 ((s.readReg rs1).toNat / 2 ^ shamt.toNat))) ∧
    (Matches (.srai rd rs1 shamt) 0xFE00707F 0x40005013 ∧
      (∀ c : Config, (immOf .i (encode c (.srai rd rs1 shamt))).setWidth 5 = shamt) ∧
      ComputesInto (.srai rd rs1 shamt) rd (fun s => BitVec.ofInt 32 ((s.readReg rs1).toInt / 2 ^ shamt.toNat)))

/-! ## Loads and stores -/

/-- A load of n bytes inside memory completes with the extended value in rd, and changes nothing else; outside memory it
raises AddressOutOfBounds and changes only the status. -/
def LoadsAs (i : RegIdx → RegIdx → Word → Instr) (n : Nat) (value : Nat → Word) : Prop :=
  ∀ (s : State) (rd rs1 : RegIdx) (imm : Word),
    let ea := s.readReg rs1 + imm
    (ea.toNat + n ≤ s.mem.size →
      Completes (i rd rs1 imm) s (fun t =>
        RegsAfterWrite rd (value (byteSum s.mem ea.toNat n)) s t ∧ t.pc = s.pc + 4 ∧ SameMemory s t ∧ SameRest s t)) ∧
    (s.mem.size < ea.toNat + n → exec (i rd rs1 imm) s = .next (FaultedFrom s (.addressOutOfBounds ea n)))

/-- A number of 8n bits read as signed, as a word (R15). -/
def signedWord (bits v : Nat) : Word := BitVec.ofInt 32 (if 2 ^ (bits - 1) ≤ v then (v : Int) - 2 ^ bits else v)

/-- LB, LH and LW (R550, R551, R552). -/
def Obligations.SignedLoadResults : Prop :=
  (∀ rd rs1 imm, Matches (.lb rd rs1 imm) 0x0000707F 0x00000003 ∧ CarriesImmediate (.lb rd rs1 imm) .i imm) ∧
  LoadsAs .lb 1 (signedWord 8) ∧
  (∀ rd rs1 imm, Matches (.lh rd rs1 imm) 0x0000707F 0x00001003 ∧ CarriesImmediate (.lh rd rs1 imm) .i imm) ∧
  LoadsAs .lh 2 (signedWord 16) ∧
  (∀ rd rs1 imm, Matches (.lw rd rs1 imm) 0x0000707F 0x00002003 ∧ CarriesImmediate (.lw rd rs1 imm) .i imm) ∧
  LoadsAs .lw 4 (BitVec.ofNat 32)

/-- LBU and LHU (R553, R554). -/
def Obligations.UnsignedLoadResults : Prop :=
  (∀ rd rs1 imm, Matches (.lbu rd rs1 imm) 0x0000707F 0x00004003 ∧ CarriesImmediate (.lbu rd rs1 imm) .i imm) ∧
  LoadsAs .lbu 1 (BitVec.ofNat 32) ∧
  (∀ rd rs1 imm, Matches (.lhu rd rs1 imm) 0x0000707F 0x00005003 ∧ CarriesImmediate (.lhu rd rs1 imm) .i imm) ∧
  LoadsAs .lhu 2 (BitVec.ofNat 32)

/-- A store of n bytes inside memory completes: byte k of `x[rs2]` stands at the effective address plus k, every byte
outside the n is as before, no register changes and the pc advances; outside memory it raises AddressOutOfBounds and
changes only the status. -/
def StoresAs (i : RegIdx → RegIdx → Word → Instr) (n : Nat) : Prop :=
  ∀ (s : State) (rs1 rs2 : RegIdx) (imm : Word),
    let ea := s.readReg rs1 + imm
    (ea.toNat + n ≤ s.mem.size →
      Completes (i rs1 rs2 imm) s (fun t =>
        (∀ k : Nat, k < n → (t.mem.readByte (ea.toNat + k)).toNat = (s.readReg rs2).toNat / 256 ^ k % 256) ∧
        SameMemoryOutside ea.toNat n s t ∧ SameRegs s t ∧ t.pc = s.pc + 4 ∧ SameRest s t)) ∧
    (s.mem.size < ea.toNat + n → exec (i rs1 rs2 imm) s = .next (FaultedFrom s (.addressOutOfBounds ea n)))

/-- SB, SH and SW (R600, R601, R602). -/
def Obligations.StoreResults : Prop :=
  (∀ rs1 rs2 imm, Matches (.sb rs1 rs2 imm) 0x0000707F 0x00000023 ∧ CarriesImmediate (.sb rs1 rs2 imm) .s imm) ∧
  StoresAs .sb 1 ∧
  (∀ rs1 rs2 imm, Matches (.sh rs1 rs2 imm) 0x0000707F 0x00001023 ∧ CarriesImmediate (.sh rs1 rs2 imm) .s imm) ∧
  StoresAs .sh 2 ∧
  (∀ rs1 rs2 imm, Matches (.sw rs1 rs2 imm) 0x0000707F 0x00002023 ∧ CarriesImmediate (.sw rs1 rs2 imm) .s imm) ∧
  StoresAs .sw 4

/-! ## Branches, upper-immediate instructions and jumps -/

/-- A branch completes with the pc at the branch's own pc plus the offset if the condition holds of the two register
values, else at pc + 4, and with no register, no memory byte and nothing else changed. -/
def BranchesOn (i : RegIdx → RegIdx → Word → Instr) (condition : Word → Word → Prop) : Prop :=
  ∀ (s : State) (rs1 rs2 : RegIdx) (imm : Word),
    Completes (i rs1 rs2 imm) s (fun t =>
      (condition (s.readReg rs1) (s.readReg rs2) → t.pc = s.pc + imm) ∧
      (¬ condition (s.readReg rs1) (s.readReg rs2) → t.pc = s.pc + 4) ∧
      SameRegs s t ∧ SameMemory s t ∧ SameRest s t)

/-- BEQ and BNE (R650, R651). -/
def Obligations.EqualityBranchResults : Prop :=
  (∀ rs1 rs2 imm, Matches (.beq rs1 rs2 imm) 0x0000707F 0x00000063 ∧ CarriesImmediate (.beq rs1 rs2 imm) .b imm) ∧
  BranchesOn .beq (fun a b => a = b) ∧
  (∀ rs1 rs2 imm, Matches (.bne rs1 rs2 imm) 0x0000707F 0x00001063 ∧ CarriesImmediate (.bne rs1 rs2 imm) .b imm) ∧
  BranchesOn .bne (fun a b => a ≠ b)

/-- BLT, BGE, BLTU and BGEU (R652 to R655). -/
def Obligations.OrderBranchResults : Prop :=
  (∀ rs1 rs2 imm, Matches (.blt rs1 rs2 imm) 0x0000707F 0x00004063 ∧ CarriesImmediate (.blt rs1 rs2 imm) .b imm) ∧
  BranchesOn .blt (fun a b => a.toInt < b.toInt) ∧
  (∀ rs1 rs2 imm, Matches (.bge rs1 rs2 imm) 0x0000707F 0x00005063 ∧ CarriesImmediate (.bge rs1 rs2 imm) .b imm) ∧
  BranchesOn .bge (fun a b => a.toInt ≥ b.toInt) ∧
  (∀ rs1 rs2 imm, Matches (.bltu rs1 rs2 imm) 0x0000707F 0x00006063 ∧ CarriesImmediate (.bltu rs1 rs2 imm) .b imm) ∧
  BranchesOn .bltu (fun a b => a.toNat < b.toNat) ∧
  (∀ rs1 rs2 imm, Matches (.bgeu rs1 rs2 imm) 0x0000707F 0x00007063 ∧ CarriesImmediate (.bgeu rs1 rs2 imm) .b imm) ∧
  BranchesOn .bgeu (fun a b => a.toNat ≥ b.toNat)

/-- LUI and AUIPC (R700, R701): the immediate, and the instruction's own pc plus the immediate modulo 2^32. -/
def Obligations.UpperImmediateResults : Prop :=
  ∀ (rd : RegIdx) (imm : Word),
    (Matches (.lui rd imm) 0x0000007F 0x00000037 ∧ CarriesImmediate (.lui rd imm) .u imm ∧
      ComputesInto (.lui rd imm) rd (fun _ => imm)) ∧
    (Matches (.auipc rd imm) 0x0000007F 0x00000017 ∧ CarriesImmediate (.auipc rd imm) .u imm ∧
      ComputesInto (.auipc rd imm) rd (fun s => BitVec.ofNat 32 (s.pc.toNat + imm.toNat)))

/-- JAL (R750): rd receives pc + 4 and the pc becomes pc + imm_J, with bit 0 cleared if `JAL_CLEARS_BIT0` is set. -/
def Obligations.JalResult : Prop :=
  ∀ (s : State) (rd : RegIdx) (imm : Word),
    Matches (.jal rd imm) 0x0000007F 0x0000006F ∧ CarriesImmediate (.jal rd imm) .j imm ∧
    Completes (.jal rd imm) s (fun t =>
      RegsAfterWrite rd (s.pc + 4) s t ∧
      t.pc = (if s.cfg.jalClearsBit0 then (s.pc + imm) &&& 0xFFFFFFFE#32 else s.pc + imm) ∧
      SameMemory s t ∧ SameRest s t)

/-- JALR (R751): rd receives pc + 4 and the pc becomes the old x[rs1] plus the immediate with bit 0 cleared, rounded down
to an even number. -/
def Obligations.JalrResult : Prop :=
  ∀ (s : State) (rd rs1 : RegIdx) (imm : Word),
    Matches (.jalr rd rs1 imm) 0x0000707F 0x00000067 ∧ CarriesImmediate (.jalr rd rs1 imm) .i imm ∧
    Completes (.jalr rd rs1 imm) s (fun t =>
      RegsAfterWrite rd (s.pc + 4) s t ∧
      t.pc.toNat = (s.readReg rs1 + imm).toNat / 2 * 2 ∧
      SameMemory s t ∧ SameRest s t)

/-! ## Fences, EBREAK and the CSR instructions -/

/-- FENCE and FENCE.I are no-ops, each the single word its parameter gives, by default 0x0FF0000F and 0x0000100F (R800,
R801). -/
def Obligations.FencesOnlyAdvance : Prop :=
  (∀ (c : Config) (w : Word), c.wf →
    (decodeInstr c w = some .fence ↔ w = c.fenceWord) ∧ (decodeInstr c w = some .fenceI ↔ w = c.fenceIWord)) ∧
  defaultConfig.fenceWord = 0x0FF0000F ∧ defaultConfig.fenceIWord = 0x0000100F ∧
  OnlyAdvances .fence ∧ OnlyAdvances .fenceI

/-- EBREAK and the six CSR instructions are no-ops: rd keeps its value whatever the CSR number (R899, R901 to R906). -/
def Obligations.EbreakAndCsrOnlyAdvance : Prop :=
  (Matches .ebreak 0xFFFFFFFF 0x00100073 ∧ OnlyAdvances .ebreak) ∧
  (∀ (rd rs1 : RegIdx) (csr : BitVec 12),
    (Matches (.csrrw rd rs1 csr) 0x0000707F 0x00001073 ∧ OnlyAdvances (.csrrw rd rs1 csr)) ∧
    (Matches (.csrrs rd rs1 csr) 0x0000707F 0x00002073 ∧ OnlyAdvances (.csrrs rd rs1 csr)) ∧
    (Matches (.csrrc rd rs1 csr) 0x0000707F 0x00003073 ∧ OnlyAdvances (.csrrc rd rs1 csr))) ∧
  ∀ (rd : RegIdx) (uimm : BitVec 5) (csr : BitVec 12),
    (Matches (.csrrwi rd uimm csr) 0x0000707F 0x00005073 ∧ OnlyAdvances (.csrrwi rd uimm csr)) ∧
    (Matches (.csrrsi rd uimm csr) 0x0000707F 0x00006073 ∧ OnlyAdvances (.csrrsi rd uimm csr)) ∧
    (Matches (.csrrci rd uimm csr) 0x0000707F 0x00007073 ∧ OnlyAdvances (.csrrci rd uimm csr))

/-! ## ECALL -/

/-- sbrk: a0 = 0 becomes `HEAP_START`, any other a0 is unchanged, on every call (R860). -/
def Obligations.EcallSbrk : Prop :=
  ∀ s : State, s.readReg 17 = s.cfg.sysSbrk →
    Completes .ecall s (fun t =>
      RegsAfterWrite 10 (if s.readReg 10 = 0 then s.cfg.heapStart else s.readReg 10) s t ∧
      t.pc = s.pc + 4 ∧ SameMemory s t ∧ SameRest s t)

/-- read word: the oracle's word comes into a0; if the stream fails, InputError and only the status changes (R861). -/
def Obligations.EcallReadWord : Prop :=
  ∀ s : State, s.cfg.wf → s.readReg 17 = s.cfg.sysReadWord →
    (∀ v, s.oracle.askWord.1 = .ok v →
      Completes .ecall s (fun t =>
        RegsAfterWrite 10 v s t ∧ t.pc = s.pc + 4 ∧ SameMemory s t ∧ t.cfg = s.cfg ∧ t.status = s.status ∧
        t.trace = s.trace ∧ t.oracle = s.oracle.askWord.2)) ∧
    (s.oracle.askWord.1 = .fail → exec .ecall s = .next (FaultedFrom s .inputError))

/-- read string: the oracle's bytes, at most `READ_STR_MAX` of them, are written from a0 up and nothing else is, neither a
NUL nor a register (R864). -/
def Obligations.EcallReadStringWrites : Prop :=
  ∀ (s : State) (bs : List Byte), s.cfg.wf → s.readReg 17 = s.cfg.sysReadString →
    (s.readReg 10).toNat < s.mem.size → (s.oracle.askLine s.cfg.readStrMax).1 = .ok bs →
    (s.readReg 10).toNat + bs.length ≤ s.mem.size →
    bs.length ≤ s.cfg.readStrMax ∧
    Completes .ecall s (fun t =>
      (∀ k : Nat, k < bs.length → bs[k]? = some (t.mem.readByte ((s.readReg 10).toNat + k))) ∧
      SameMemoryOutside (s.readReg 10).toNat bs.length s t ∧ SameRegs s t ∧ t.pc = s.pc + 4 ∧
      t.cfg = s.cfg ∧ t.status = s.status ∧ t.trace = s.trace ∧ t.oracle = (s.oracle.askLine s.cfg.readStrMax).2)

/-- read string's errors, in their order: a bad pointer before the oracle is asked, then a failed stream, then a line that
would run past the end of memory; each changes only the status (R864, R1011). -/
def Obligations.EcallReadStringErrors : Prop :=
  ∀ s : State, s.cfg.wf → s.readReg 17 = s.cfg.sysReadString →
    (s.mem.size ≤ (s.readReg 10).toNat →
      exec .ecall s = .next (FaultedFrom s (.addressOutOfBounds (s.readReg 10) 1))) ∧
    ((s.readReg 10).toNat < s.mem.size →
      ((s.oracle.askLine s.cfg.readStrMax).1 = .fail → exec .ecall s = .next (FaultedFrom s .inputError)) ∧
      (∀ bs, (s.oracle.askLine s.cfg.readStrMax).1 = .ok bs → s.mem.size < (s.readReg 10).toNat + bs.length →
        exec .ecall s = .next (FaultedFrom s (.hostBufferOverrun (s.readReg 10) bs.length))))

/-- write word, to either stream: one event with the word a0, and no register or memory byte changes (R862, R863). -/
def Obligations.EcallWriteWord : Prop :=
  ∀ (s : State) (stream : Stream), s.cfg.wf →
    s.readReg 17 = (match stream with | .stdout => s.cfg.sysWriteWord | .stderr => s.cfg.sysWriteWordErr) →
    Completes .ecall s (fun t =>
      t.trace = s.trace ++ [{ stream := stream, item := .word (s.readReg 10) }] ∧
      SameRegs s t ∧ SameMemory s t ∧ t.pc = s.pc + 4 ∧ t.cfg = s.cfg ∧ t.status = s.status ∧ t.oracle = s.oracle)

/-- write string, to either stream: one event with the bytes from a0 up to the first NUL, which is not written; a bad
pointer, and then a missing NUL, raise and change only the status (R866, R867). -/
def Obligations.EcallWriteString : Prop :=
  ∀ (s : State) (stream : Stream), s.cfg.wf →
    s.readReg 17 = (match stream with | .stdout => s.cfg.sysWriteString | .stderr => s.cfg.sysWriteStringErr) →
    let a := (s.readReg 10).toNat
    (∀ n : Nat, a + n < s.mem.size → s.mem.readByte (a + n) = 0 → (∀ k : Nat, k < n → s.mem.readByte (a + k) ≠ 0) →
      Completes .ecall s (fun t =>
        (∃ bs : List Byte, t.trace = s.trace ++ [{ stream := stream, item := .bytes bs }] ∧ bs.length = n ∧
          ∀ k : Nat, k < n → bs[k]? = some (s.mem.readByte (a + k))) ∧
        SameRegs s t ∧ SameMemory s t ∧ t.pc = s.pc + 4 ∧ t.cfg = s.cfg ∧ t.status = s.status ∧
        t.oracle = s.oracle)) ∧
    (s.mem.size ≤ a → exec .ecall s = .next (FaultedFrom s (.addressOutOfBounds (s.readReg 10) 1))) ∧
    (a < s.mem.size → (∀ k : Nat, a + k < s.mem.size → s.mem.readByte (a + k) ≠ 0) →
      exec .ecall s = .next (FaultedFrom s (.unterminatedString (s.readReg 10))))

/-- exit: the status becomes Exited(a0), all 32 bits, and nothing else changes, the pc included (R868). -/
def Obligations.EcallExit : Prop :=
  ∀ s : State, s.cfg.wf → s.readReg 17 = s.cfg.sysExit →
    exec .ecall s = .next { s with status := .exited (s.readReg 10) }

/-- An unrecognized selector raises UnsupportedSyscall(x17), and nothing changes but the status (R865). -/
def Obligations.EcallUnrecognizedSelector : Prop :=
  ∀ s : State, s.readReg 17 ∉ s.cfg.selectors →
    exec .ecall s = .next (FaultedFrom s (.unsupportedSyscall (s.readReg 17)))
end

