-- ==== Sys2Proof/Laws/Bits.lean ====
section
/-! SUPPORT. Laws of the bit fields, the immediates and the encoder's layouts: what each field of a word is as a number,
what each field of an encoded word is, and that a word is put together again from its own fields. -/

namespace Sys2Proof

/-! ## Fields as numbers -/

theorem groupField_toNat (w : Word) : (groupField w).toNat = w.toNat % 2 ^ 7 := by
  simp [groupField, BitVec.extractLsb'_toNat]

theorem rdField_toNat (w : Word) : (rdField w).toNat = w.toNat / 2 ^ 7 % 2 ^ 5 := by
  simp [rdField, BitVec.extractLsb'_toNat, Nat.shiftRight_eq_div_pow]

theorem funct3Field_toNat (w : Word) : (funct3Field w).toNat = w.toNat / 2 ^ 12 % 2 ^ 3 := by
  simp [funct3Field, BitVec.extractLsb'_toNat, Nat.shiftRight_eq_div_pow]

theorem rs1Field_toNat (w : Word) : (rs1Field w).toNat = w.toNat / 2 ^ 15 % 2 ^ 5 := by
  simp [rs1Field, BitVec.extractLsb'_toNat, Nat.shiftRight_eq_div_pow]

theorem rs2Field_toNat (w : Word) : (rs2Field w).toNat = w.toNat / 2 ^ 20 % 2 ^ 5 := by
  simp [rs2Field, BitVec.extractLsb'_toNat, Nat.shiftRight_eq_div_pow]

theorem funct7Field_toNat (w : Word) : (funct7Field w).toNat = w.toNat / 2 ^ 25 := by
  simp [funct7Field, BitVec.extractLsb'_toNat, Nat.shiftRight_eq_div_pow]
  omega

theorem imm12Field_toNat (w : Word) : (imm12Field w).toNat = w.toNat / 2 ^ 20 := by
  simp [imm12Field, BitVec.extractLsb'_toNat, Nat.shiftRight_eq_div_pow]
  omega

/-! ## Bits of placed fields and of sign-extended words -/

theorem getLsbD_place {n : Nat} (k : Nat) (b : BitVec n) (i : Nat) :
    (place k b).getLsbD i = (decide (i < 32) && decide (k ≤ i) && b.getLsbD (i - k)) := by
  simp only [place, BitVec.getLsbD_shiftLeft, BitVec.getLsbD_setWidth]
  by_cases h : i < 32 <;> by_cases h' : k ≤ i <;> simp [h, h', Nat.not_lt.mpr, Nat.lt_of_not_le]
  omega

@[simp] theorem getElem_place {n : Nat} (k : Nat) (b : BitVec n) (i : Nat) (h : i < 32) :
    (place k b)[i] = (decide (k ≤ i) && b.getLsbD (i - k)) := by
  rw [← BitVec.getLsbD_eq_getElem, getLsbD_place]; simp [h]

/-- Bit i of `sext_N(v)` is bit i of v below bit N, and bit N-1 from there up (R15). -/
theorem getElem_sext (n : Nat) (v : Word) (i : Nat) (h : i < 32) (h0 : 0 < n) :
    (sext n v)[i] = if i < n then v.getLsbD i else v.getLsbD (n - 1) := by
  have : n - 1 < n := by omega
  simp [sext, BitVec.getElem_signExtend, BitVec.msb_eq_getLsbD_last, this]

/-- `sext_N(v)` is the number the low N bits of v stand for when read as signed. -/
theorem sext_toInt (n : Nat) (v : Word) (h : n ≤ 32) : (sext n v).toInt = ((v.toNat : Int)).bmod (2 ^ n) := by
  simp [sext, BitVec.toInt_signExtend_of_le h, BitVec.toInt_setWidth]

/-- A word whose signed value fits N bits is its own `sext_N`. -/
theorem sext_of_range (n : Nat) (v : Word) (h0 : 0 < n) (h : n ≤ 32) (lo : -(2 ^ (n - 1) : Int) ≤ v.toInt)
    (hi : v.toInt < 2 ^ (n - 1)) : sext n v = v := by
  apply BitVec.eq_of_toInt_eq
  obtain ⟨m, rfl⟩ : ∃ m, n = m + 1 := ⟨n - 1, by omega⟩
  simp only [sext, BitVec.toInt_signExtend_of_le h, BitVec.toInt_setWidth]
  have hd : (v.toNat : Int).bmod (2 ^ (m + 1)) = v.toInt.bmod (2 ^ (m + 1)) := by
    rw [BitVec.toInt_eq_toNat_bmod, Int.bmod_bmod_of_dvd]
    exact_mod_cast Nat.pow_dvd_pow 2 h
  have e : (2 : Int) ^ (m + 1) = 2 * 2 ^ m := by ring
  simp only [Nat.add_sub_cancel] at lo hi
  rw [hd]
  have := Int.bmod_eq_of_le (n := v.toInt) (m := 2 ^ (m + 1)) (by push_cast; omega) (by push_cast; omega)
  exact this

theorem sext_of_fitsI {imm : Word} (h : fitsI imm = true) : sext 12 imm = imm := by
  simp only [fitsI, decide_eq_true_eq] at h
  exact sext_of_range 12 imm (by omega) (by omega) (by norm_num; omega) (by norm_num; omega)

theorem sext_of_fitsB {imm : Word} (h : fitsB imm = true) : sext 13 imm = imm := by
  simp only [fitsB, decide_eq_true_eq] at h
  exact sext_of_range 13 imm (by omega) (by omega) (by norm_num; omega) (by norm_num; omega)

theorem sext_of_fitsJ {imm : Word} (h : fitsJ imm = true) : sext 21 imm = imm := by
  simp only [fitsJ, decide_eq_true_eq] at h
  exact sext_of_range 21 imm (by omega) (by omega) (by norm_num; omega) (by norm_num; omega)

/-! ## The fields of an encoded word are the fields it was built from -/

section
variable (f7 : BitVec 7) (rs2 rs1 : BitVec 5) (f3 : BitVec 3) (rd : BitVec 5) (op : BitVec 7) (i12 : BitVec 12) (imm : Word)

@[simp] theorem groupField_encodeR : groupField (encodeR f7 rs2 rs1 f3 rd op) = op := by
  apply BitVec.eq_of_getLsbD_eq; intro i hi
  interval_cases i <;> simp [groupField, encodeR]

@[simp] theorem rdField_encodeR : rdField (encodeR f7 rs2 rs1 f3 rd op) = rd := by
  apply BitVec.eq_of_getLsbD_eq; intro i hi
  interval_cases i <;> simp [rdField, encodeR]

@[simp] theorem funct3Field_encodeR : funct3Field (encodeR f7 rs2 rs1 f3 rd op) = f3 := by
  apply BitVec.eq_of_getLsbD_eq; intro i hi
  interval_cases i <;> simp [funct3Field, encodeR]

@[simp] theorem rs1Field_encodeR : rs1Field (encodeR f7 rs2 rs1 f3 rd op) = rs1 := by
  apply BitVec.eq_of_getLsbD_eq; intro i hi
  interval_cases i <;> simp [rs1Field, encodeR]

@[simp] theorem rs2Field_encodeR : rs2Field (encodeR f7 rs2 rs1 f3 rd op) = rs2 := by
  apply BitVec.eq_of_getLsbD_eq; intro i hi
  interval_cases i <;> simp [rs2Field, encodeR]

@[simp] theorem funct7Field_encodeR : funct7Field (encodeR f7 rs2 rs1 f3 rd op) = f7 := by
  apply BitVec.eq_of_getLsbD_eq; intro i hi
  interval_cases i <;> simp [funct7Field, encodeR]

@[simp] theorem groupField_encodeI : groupField (encodeI i12 rs1 f3 rd op) = op := by
  apply BitVec.eq_of_getLsbD_eq; intro i hi
  interval_cases i <;> simp [groupField, encodeI]

@[simp] theorem rdField_encodeI : rdField (encodeI i12 rs1 f3 rd op) = rd := by
  apply BitVec.eq_of_getLsbD_eq; intro i hi
  interval_cases i <;> simp [rdField, encodeI]

@[simp] theorem funct3Field_encodeI : funct3Field (encodeI i12 rs1 f3 rd op) = f3 := by
  apply BitVec.eq_of_getLsbD_eq; intro i hi
  interval_cases i <;> simp [funct3Field, encodeI]

@[simp] theorem rs1Field_encodeI : rs1Field (encodeI i12 rs1 f3 rd op) = rs1 := by
  apply BitVec.eq_of_getLsbD_eq; intro i hi
  interval_cases i <;> simp [rs1Field, encodeI]

@[simp] theorem imm12Field_encodeI : imm12Field (encodeI i12 rs1 f3 rd op) = i12 := by
  apply BitVec.eq_of_getLsbD_eq; intro i hi
  interval_cases i <;> simp [imm12Field, encodeI]

@[simp] theorem groupField_encodeS : groupField (encodeS imm rs2 rs1 f3 op) = op := by
  apply BitVec.eq_of_getLsbD_eq; intro i hi
  interval_cases i <;> simp [groupField, encodeS, encodeR]

@[simp] theorem funct3Field_encodeS : funct3Field (encodeS imm rs2 rs1 f3 op) = f3 := by
  apply BitVec.eq_of_getLsbD_eq; intro i hi
  interval_cases i <;> simp [funct3Field, encodeS, encodeR]

@[simp] theorem rs1Field_encodeS : rs1Field (encodeS imm rs2 rs1 f3 op) = rs1 := by
  apply BitVec.eq_of_getLsbD_eq; intro i hi
  interval_cases i <;> simp [rs1Field, encodeS, encodeR]

@[simp] theorem rs2Field_encodeS : rs2Field (encodeS imm rs2 rs1 f3 op) = rs2 := by
  apply BitVec.eq_of_getLsbD_eq; intro i hi
  interval_cases i <;> simp [rs2Field, encodeS, encodeR]

@[simp] theorem groupField_encodeB : groupField (encodeB imm rs2 rs1 f3 op) = op := by
  apply BitVec.eq_of_getLsbD_eq; intro i hi
  interval_cases i <;> simp [groupField, encodeB]

@[simp] theorem funct3Field_encodeB : funct3Field (encodeB imm rs2 rs1 f3 op) = f3 := by
  apply BitVec.eq_of_getLsbD_eq; intro i hi
  interval_cases i <;> simp [funct3Field, encodeB]

@[simp] theorem rs1Field_encodeB : rs1Field (encodeB imm rs2 rs1 f3 op) = rs1 := by
  apply BitVec.eq_of_getLsbD_eq; intro i hi
  interval_cases i <;> simp [rs1Field, encodeB]

@[simp] theorem rs2Field_encodeB : rs2Field (encodeB imm rs2 rs1 f3 op) = rs2 := by
  apply BitVec.eq_of_getLsbD_eq; intro i hi
  interval_cases i <;> simp [rs2Field, encodeB]

@[simp] theorem groupField_encodeU : groupField (encodeU imm rd op) = op := by
  apply BitVec.eq_of_getLsbD_eq; intro i hi
  interval_cases i <;> simp [groupField, encodeU]

@[simp] theorem rdField_encodeU : rdField (encodeU imm rd op) = rd := by
  apply BitVec.eq_of_getLsbD_eq; intro i hi
  interval_cases i <;> simp [rdField, encodeU]

@[simp] theorem groupField_encodeJ : groupField (encodeJ imm rd op) = op := by
  apply BitVec.eq_of_getLsbD_eq; intro i hi
  interval_cases i <;> simp [groupField, encodeJ]

@[simp] theorem rdField_encodeJ : rdField (encodeJ imm rd op) = rd := by
  apply BitVec.eq_of_getLsbD_eq; intro i hi
  interval_cases i <;> simp [rdField, encodeJ]

/-! ## The immediates of an encoded word -/

@[simp] theorem immI_encodeI : immI (encodeI i12 rs1 f3 rd op) = i12.signExtend 32 := by
  simp [immI, sext, place]

@[simp] theorem immS_encodeS : immS (encodeS imm rs2 rs1 f3 op) = sext 12 imm := by
  apply BitVec.eq_of_getLsbD_eq; intro i hi
  interval_cases i <;> simp [immS, getElem_sext, encodeS, encodeR, funct7Field, rdField]

theorem immB_encodeB (h : imm.getLsbD 0 = false) : immB (encodeB imm rs2 rs1 f3 op) = sext 13 imm := by
  apply BitVec.eq_of_getLsbD_eq; intro i hi
  interval_cases i <;> simp_all [immB, getElem_sext, encodeB]

theorem immU_encodeU (h : fitsU imm = true) : immU (encodeU imm rd op) = imm := by
  have low : ∀ i, i < 12 → imm.getLsbD i = false := by
    intro i hi
    simp only [fitsU, decide_eq_true_eq] at h
    have hb := Nat.testBit_mod_two_pow imm.toNat 12 i
    rw [show 2 ^ 12 = 4096 from rfl, h] at hb
    simpa [hi, BitVec.testBit_toNat] using hb.symm
  apply BitVec.eq_of_getLsbD_eq; intro i hi
  have := low i
  interval_cases i <;> simp_all [immU, encodeU]

theorem immJ_encodeJ (h : imm.getLsbD 0 = false) : immJ (encodeJ imm rd op) = sext 21 imm := by
  apply BitVec.eq_of_getLsbD_eq; intro i hi
  interval_cases i <;> simp_all [immJ, getElem_sext, encodeJ]

/-! ## An encoded word under a row's mask is the row's match value -/

theorem encodeR_mask : encodeR f7 rs2 rs1 f3 rd op &&& 0xFE00707F#32 = encodeR f7 0 0 f3 0 op := by
  apply BitVec.eq_of_getLsbD_eq; intro i hi
  interval_cases i <;> simp [encodeR]

theorem encodeI_mask : encodeI i12 rs1 f3 rd op &&& 0x0000707F#32 = encodeI 0 0 f3 0 op := by
  apply BitVec.eq_of_getLsbD_eq; intro i hi
  interval_cases i <;> simp [encodeI]

theorem encodeS_mask : encodeS imm rs2 rs1 f3 op &&& 0x0000707F#32 = encodeI 0 0 f3 0 op := by
  apply BitVec.eq_of_getLsbD_eq; intro i hi
  interval_cases i <;> simp [encodeS, encodeR, encodeI]

theorem encodeB_mask : encodeB imm rs2 rs1 f3 op &&& 0x0000707F#32 = encodeI 0 0 f3 0 op := by
  apply BitVec.eq_of_getLsbD_eq; intro i hi
  interval_cases i <;> simp [encodeB, encodeI]

theorem encodeU_mask : encodeU imm rd op &&& 0x0000007F#32 = op.setWidth 32 := by
  apply BitVec.eq_of_getLsbD_eq; intro i hi
  interval_cases i <;> simp [encodeU]

theorem encodeJ_mask : encodeJ imm rd op &&& 0x0000007F#32 = op.setWidth 32 := by
  apply BitVec.eq_of_getLsbD_eq; intro i hi
  interval_cases i <;> simp [encodeJ]

end

/-! ## A word put together from its own fields -/

section
variable (w : Word)

theorem encodeR_fields :
    encodeR (funct7Field w) (rs2Field w) (rs1Field w) (funct3Field w) (rdField w) (groupField w) = w := by
  apply BitVec.eq_of_getLsbD_eq; intro i hi
  interval_cases i <;> simp [encodeR, funct7Field, rs2Field, rs1Field, funct3Field, rdField, groupField]

theorem encodeI_fields : encodeI (imm12Field w) (rs1Field w) (funct3Field w) (rdField w) (groupField w) = w := by
  apply BitVec.eq_of_getLsbD_eq; intro i hi
  interval_cases i <;> simp [encodeI, imm12Field, rs1Field, funct3Field, rdField, groupField]

theorem immI_low : (immI w).setWidth 12 = imm12Field w := by
  apply BitVec.eq_of_getLsbD_eq; intro i hi
  interval_cases i <;> simp [immI, getElem_sext]

theorem immI_shamt : (immI w).setWidth 5 = rs2Field w := by
  apply BitVec.eq_of_getLsbD_eq; intro i hi
  interval_cases i <;> simp [immI, getElem_sext, imm12Field, rs2Field]

theorem encodeS_fields : encodeS (immS w) (rs2Field w) (rs1Field w) (funct3Field w) (groupField w) = w := by
  apply BitVec.eq_of_getLsbD_eq; intro i hi
  interval_cases i <;>
    simp [encodeS, encodeR, immS, getElem_sext, funct7Field, rs2Field, rs1Field, funct3Field, rdField, groupField]

theorem encodeB_fields : encodeB (immB w) (rs2Field w) (rs1Field w) (funct3Field w) (groupField w) = w := by
  apply BitVec.eq_of_getLsbD_eq; intro i hi
  interval_cases i <;> simp [encodeB, immB, getElem_sext, rs2Field, rs1Field, funct3Field, groupField]

theorem encodeU_fields : encodeU (immU w) (rdField w) (groupField w) = w := by
  apply BitVec.eq_of_getLsbD_eq; intro i hi
  interval_cases i <;> simp [encodeU, immU, rdField, groupField]

theorem encodeJ_fields : encodeJ (immJ w) (rdField w) (groupField w) = w := by
  apply BitVec.eq_of_getLsbD_eq; intro i hi
  interval_cases i <;> simp [encodeJ, immJ, getElem_sext, rdField, groupField]

end

/-! ## The immediates of a decoded word lie in their formats' ranges (R322) -/

/-- `sext_N(v)` lies between -2^(N-1) and 2^(N-1) - 1. -/
theorem sext_range (n : Nat) (v : Word) (h0 : 0 < n) (h : n ≤ 32) :
    -(2 ^ (n - 1) : Int) ≤ (sext n v).toInt ∧ (sext n v).toInt < 2 ^ (n - 1) := by
  obtain ⟨m, rfl⟩ : ∃ m, n = m + 1 := ⟨n - 1, by omega⟩
  have h1 := Int.le_bmod (x := (v.toNat : Int)) (m := 2 ^ (m + 1)) (by positivity)
  have h2 := Int.bmod_lt (x := (v.toNat : Int)) (m := 2 ^ (m + 1)) (by positivity)
  have e : (2 : Int) ^ (m + 1) = 2 * 2 ^ m := by ring
  rw [sext_toInt _ _ h]
  push_cast at h1 h2 ⊢
  show -(2 ^ m : Int) ≤ _ ∧ _ < (2 ^ m : Int)
  generalize (2 : Int) ^ (m + 1) = y at *
  generalize (2 : Int) ^ m = x at *
  omega

/-- A word whose bit 0 is clear is even. -/
theorem even_of_bit0 {v : Word} (h : v.getLsbD 0 = false) : v.toInt % 2 = 0 := by
  rw [← BitVec.testBit_toNat, Nat.testBit_zero] at h
  simp at h
  rw [BitVec.toInt_eq_toNat_cond]
  split <;> omega

/-- Bit 0 of an even word is clear. -/
theorem bit0_of_even {v : Word} (h : v.toInt % 2 = 0) : v.getLsbD 0 = false := by
  have := v.isLt
  rw [BitVec.toInt_eq_toNat_cond] at h
  rw [← BitVec.testBit_toNat, Nat.testBit_zero]
  simp
  split at h <;> omega

theorem fitsI_immI (w : Word) : fitsI (immI w) = true := by
  have h := sext_range 12 (place 0 (imm12Field w)) (by omega) (by omega)
  norm_num at h
  exact decide_eq_true (by unfold immI; omega)

theorem fitsI_immS (w : Word) : fitsI (immS w) = true := by
  have h := sext_range 12 (place 5 (funct7Field w) ||| place 0 (rdField w)) (by omega) (by omega)
  norm_num at h
  exact decide_eq_true (by unfold immS; omega)

theorem fitsB_immB (w : Word) : fitsB (immB w) = true := by
  have e : (immB w).toInt % 2 = 0 := even_of_bit0 (by simp [immB, getElem_sext])
  have h := sext_range 13 (place 12 (w.extractLsb' 31 1) ||| place 11 (w.extractLsb' 7 1) |||
    place 5 (w.extractLsb' 25 6) ||| place 1 (w.extractLsb' 8 4)) (by omega) (by omega)
  norm_num at h
  exact decide_eq_true ⟨e, h.1, by have := h.2; unfold immB at *; omega⟩

theorem fitsJ_immJ (w : Word) : fitsJ (immJ w) = true := by
  have e : (immJ w).toInt % 2 = 0 := even_of_bit0 (by simp [immJ, getElem_sext])
  have h := sext_range 21 (place 20 (w.extractLsb' 31 1) ||| place 12 (w.extractLsb' 12 8) |||
    place 11 (w.extractLsb' 20 1) ||| place 1 (w.extractLsb' 21 10)) (by omega) (by omega)
  norm_num at h
  exact decide_eq_true ⟨e, h.1, by have := h.2; unfold immJ at *; omega⟩

theorem immU_toNat (w : Word) : (immU w).toNat = w.toNat / 2 ^ 12 * 2 ^ 12 := by
  simp [immU, place, Nat.shiftLeft_eq, BitVec.extractLsb'_toNat, Nat.shiftRight_eq_div_pow]
  have := w.isLt
  omega

theorem fitsU_immU (w : Word) : fitsU (immU w) = true := decide_eq_true (by rw [immU_toNat]; omega)

@[simp] theorem regBits_toFin (r : RegIdx) : (regBits r).toFin = r := rfl

@[simp] theorem toFin_regBits (b : BitVec 5) : regBits b.toFin = b := rfl

/-! ## The immediate of an encoded instruction is its operand -/

theorem immI_encodeImm {imm : Word} (op : BitVec 7) (f3 : BitVec 3) (rd rs1 : RegIdx) (h : fitsI imm = true) :
    immI (encodeImm op f3 rd rs1 imm) = imm := by
  rw [encodeImm, immI_encodeI]
  exact sext_of_fitsI h

theorem immS_encodeS_of_fits {imm : Word} (rs2 rs1 : BitVec 5) (f3 : BitVec 3) (op : BitVec 7) (h : fitsI imm = true) :
    immS (encodeS imm rs2 rs1 f3 op) = imm := by
  rw [immS_encodeS]
  exact sext_of_fitsI h

theorem immB_encodeB_of_fits {imm : Word} (rs2 rs1 : BitVec 5) (f3 : BitVec 3) (op : BitVec 7) (h : fitsB imm = true) :
    immB (encodeB imm rs2 rs1 f3 op) = imm := by
  rw [immB_encodeB _ _ _ _ _ (bit0_of_even (of_decide_eq_true h).1)]
  exact sext_of_fitsB h

theorem immJ_encodeJ_of_fits {imm : Word} (rd : BitVec 5) (op : BitVec 7) (h : fitsJ imm = true) :
    immJ (encodeJ imm rd op) = imm := by
  rw [immJ_encodeJ _ _ _ (bit0_of_even (of_decide_eq_true h).1)]
  exact sext_of_fitsJ h

end Sys2Proof
end

