-- ==== Sys2Proof/Laws/Bytes.lean ====
section
/-! SUPPORT. Laws of the byte order: words as bytes and bytes as words (R202, R204, R208). -/

namespace Sys2Proof

@[simp] theorem leBytes_length (n : Nat) (v : Word) : (leBytes n v).length = n := by
  induction n generalizing v with
  | zero => rfl
  | succ n ih => simp [leBytes, ih]

/-- Byte k of a word's bytes is bits 8k+7 to 8k of the word. -/
theorem leBytes_getElem? (n : Nat) (v : Word) (k : Nat) (h : k < n) :
    (leBytes n v)[k]? = some (v.extractLsb' (8 * k) 8) := by
  induction n generalizing v k with
  | zero => omega
  | succ n ih =>
    cases k with
    | zero =>
      simp only [leBytes, List.getElem?_cons_zero, Option.some.injEq]
      exact BitVec.eq_of_toNat_eq (by simp [BitVec.extractLsb'_toNat])
    | succ k =>
      simp only [leBytes, List.getElem?_cons_succ, ih (v >>> 8) k (by omega), Option.some.injEq]
      apply BitVec.eq_of_toNat_eq
      simp [BitVec.extractLsb'_toNat, ← Nat.shiftRight_add]
      congr 2; omega

/-- The number up to four bytes stand for, the first the least significant. -/
theorem leWord_toNat_cons (b : Byte) (bs : List Byte) (h : (leWord bs).toNat < 2 ^ 24) :
    (leWord (b :: bs)).toNat = b.toNat + 256 * (leWord bs).toNat := by
  have hb := b.isLt
  simp only [leWord, BitVec.toNat_add, BitVec.toNat_shiftLeft, BitVec.toNat_setWidth, Nat.shiftLeft_eq]
  omega

/-- The word of k bytes lies below 256 to the k, for at most four bytes. -/
theorem leWord_lt (bs : List Byte) (h : bs.length ≤ 4) : (leWord bs).toNat < 256 ^ bs.length := by
  induction bs with
  | nil => simp [leWord]
  | cons b bs ih =>
    have hl : bs.length ≤ 3 := by simp at h; omega
    have h1 := ih (by omega)
    have h2 : (leWord bs).toNat < 2 ^ 24 :=
      lt_of_lt_of_le h1 (le_trans (Nat.pow_le_pow_right (by norm_num) hl) (by norm_num))
    rw [leWord_toNat_cons b bs h2, List.length_cons, Nat.pow_succ]
    have := b.isLt
    omega

/-- The word of a word's low n bytes is its low 8n bits. -/
theorem leWord_leBytes (n : Nat) (v : Word) (h : n ≤ 4) : leWord (leBytes n v) = BitVec.ofNat 32 (v.toNat % 256 ^ n) := by
  apply BitVec.eq_of_toNat_eq
  have key : ∀ (n : Nat) (v : Word), n ≤ 4 → (leWord (leBytes n v)).toNat = v.toNat % 256 ^ n := by
    intro n
    induction n with
    | zero => intro v _; simp [leBytes, leWord, Nat.mod_one]
    | succ n ih =>
      intro v hn
      have h1 := ih (v >>> 8) (by omega)
      have h2 : (leWord (leBytes n (v >>> 8))).toNat < 2 ^ 24 := by
        have := leWord_lt (leBytes n (v >>> 8)) (by simp; omega)
        rw [leBytes_length] at this
        exact lt_of_lt_of_le this (le_trans (Nat.pow_le_pow_right (by norm_num) (by omega : n ≤ 3)) (by norm_num))
      rw [leBytes, leWord_toNat_cons _ _ h2, h1]
      simp only [BitVec.toNat_setWidth, BitVec.toNat_ushiftRight, Nat.shiftRight_eq_div_pow]
      have e : v.toNat % (256 * 256 ^ n) = v.toNat % 256 + 256 * (v.toNat / 256 % 256 ^ n) := Nat.mod_mul
      have p : (256 : Nat) ^ (n + 1) = 256 * 256 ^ n := Nat.pow_succ'
      rw [p, e]
  rw [key n v h, BitVec.toNat_ofNat, Nat.mod_eq_of_lt (b := 2 ^ 32)]
  exact lt_of_le_of_lt (Nat.mod_le _ _) v.isLt

theorem leWord_leBytes_four (v : Word) : leWord (leBytes 4 v) = v := by
  rw [leWord_leBytes 4 v (le_refl _)]
  apply BitVec.eq_of_toNat_eq
  have h : v.toNat < 4294967296 := v.isLt
  simp [h]

end Sys2Proof
end

