-- ==== Sys2Proof/Laws/Memory.lean ====
section
/-! SUPPORT. Laws of memory: read after write, what a write leaves alone, the canonical form, and the checked accesses. -/

namespace Sys2Proof.Machine

/-! ## Cells -/

theorem cellsRead_insert (cells : List Host.Cell) (a : Nat) (b : Byte) (x : Nat)
    (fresh : ∀ c ∈ cells, c.1 ≠ a) :
    cellsRead (cellsInsert cells a b) x = if x = a then b else cellsRead cells x := by
  induction cells with
  | nil => simp [cellsInsert, cellsRead, eq_comm]
  | cons c rest ih =>
    obtain ⟨k, y⟩ := c
    have hk : k ≠ a := fresh (k, y) (by simp)
    have ih := ih (fun c hc => fresh c (by simp [hc]))
    unfold cellsInsert
    split
    · simp [cellsRead, eq_comm]
    · simp only [cellsRead, ih]
      by_cases h1 : k = x <;> by_cases h2 : x = a <;> simp_all

theorem cellsRead_filter (cells : List Host.Cell) (a x : Nat) :
    cellsRead (cells.filter (fun c => c.1 ≠ a)) x = if x = a then unlistedByte else cellsRead cells x := by
  induction cells with
  | nil => simp [cellsRead]
  | cons c rest ih =>
    obtain ⟨k, y⟩ := c
    by_cases h1 : k = a
    · subst h1
      rw [List.filter_cons_of_neg (by simp), ih]
      by_cases h2 : x = k <;> simp [cellsRead, h2, Ne.symm (a := x)]
    · rw [List.filter_cons_of_pos (by simpa using h1)]
      simp only [cellsRead, ih]
      by_cases h2 : k = x <;> by_cases h3 : x = a <;> simp_all

/-- A byte written is read back, and a write leaves every other address alone. No canonical form is needed. -/
theorem readByte_writeByte (m : Memory) (a : Nat) (b : Byte) (x : Nat) :
    (m.writeByte a b).readByte x = if x = a then b else m.readByte x := by
  simp only [Memory.readByte, Memory.writeByte, cellsWrite]
  split
  · rename_i h; rw [cellsRead_filter, h]
  · rw [cellsRead_insert _ _ _ _ (by intro c hc; simpa using (List.mem_filter.mp hc).2), cellsRead_filter]
    by_cases h : x = a <;> simp [h]

@[simp] theorem writeByte_size (m : Memory) (a : Nat) (b : Byte) : (m.writeByte a b).size = m.size := rfl

@[simp] theorem writeBytes_size (m : Memory) (a : Nat) (bs : List Byte) : (m.writeBytes a bs).size = m.size := by
  induction bs generalizing m a with
  | nil => rfl
  | cons b bs ih => simp [Memory.writeBytes, ih]

/-! ## The canonical form is kept -/

theorem mem_cellsInsert (cells : List Host.Cell) (a : Nat) (b : Byte) (c : Host.Cell) :
    c ∈ cellsInsert cells a b ↔ c = (a, b) ∨ c ∈ cells := by
  induction cells with
  | nil => simp [cellsInsert]
  | cons d rest ih =>
    obtain ⟨k, y⟩ := d
    unfold cellsInsert
    split
    · simp
    · simp only [List.mem_cons, ih]; tauto

theorem cellsInsert_sorted (cells : List Host.Cell) (a : Nat) (b : Byte)
    (sorted : cells.Pairwise (fun c d => c.1 < d.1)) (fresh : ∀ c ∈ cells, c.1 ≠ a) :
    (cellsInsert cells a b).Pairwise (fun c d => c.1 < d.1) := by
  induction cells with
  | nil => simp [cellsInsert]
  | cons d rest ih =>
    obtain ⟨k, y⟩ := d
    rw [List.pairwise_cons] at sorted
    have hk : k ≠ a := fresh (k, y) (by simp)
    unfold cellsInsert
    split
    · rename_i h
      rw [List.pairwise_cons, List.pairwise_cons]
      refine ⟨?_, sorted⟩
      intro c hc
      rcases List.mem_cons.mp hc with rfl | hc
      · exact h
      · exact lt_trans h (sorted.1 c hc)
    · rw [List.pairwise_cons]
      refine ⟨?_, ih sorted.2 (fun c hc => fresh c (by simp [hc]))⟩
      intro c hc
      rcases (mem_cellsInsert rest a b c).mp hc with rfl | hc
      · simp only; omega
      · exact sorted.1 c hc

/-- A byte written below the size keeps the canonical form. -/
theorem writeByte_wf (m : Memory) (a : Nat) (b : Byte) (h : m.wf) (ha : a < m.size) : (m.writeByte a b).wf := by
  obtain ⟨sorted, listed, size⟩ := h
  have fsorted := sorted.filter (fun c => decide (c.1 ≠ a))
  have flisted : ∀ c ∈ m.cells.filter (fun c => decide (c.1 ≠ a)), c.2 ≠ unlistedByte ∧ c.1 < m.size :=
    fun c hc => listed c (List.mem_filter.mp hc).1
  have ffresh : ∀ c ∈ m.cells.filter (fun c => decide (c.1 ≠ a)), c.1 ≠ a := by
    intro c hc; simpa using (List.mem_filter.mp hc).2
  simp only [Memory.wf, Memory.writeByte, cellsWrite]
  split
  · exact ⟨fsorted, flisted, size⟩
  · rename_i hb
    refine ⟨cellsInsert_sorted _ _ _ fsorted ffresh, ?_, size⟩
    intro c hc
    rcases (mem_cellsInsert _ _ _ _).mp hc with rfl | hc
    · exact ⟨hb, ha⟩
    · exact flisted c hc

/-- Bytes written below the size keep the canonical form. -/
theorem writeBytes_wf (m : Memory) (a : Nat) (bs : List Byte) (h : m.wf) (ha : a + bs.length ≤ m.size) :
    (m.writeBytes a bs).wf := by
  induction bs generalizing m a with
  | nil => exact h
  | cons b bs ih =>
    simp only [List.length_cons] at ha
    exact ih _ _ (writeByte_wf m a b h (by omega)) (by simp; omega)

/-! ## Runs of bytes -/

/-- A run of bytes written is read back, and every address outside it reads as before. -/
theorem readByte_writeBytes (m : Memory) (a : Nat) (bs : List Byte) (x : Nat) :
    (m.writeBytes a bs).readByte x = if a ≤ x ∧ x < a + bs.length then bs.getD (x - a) 0 else m.readByte x := by
  induction bs generalizing m a with
  | nil => simp only [Memory.writeBytes, List.length_nil]; split <;> [omega; rfl]
  | cons b bs ih =>
    simp only [Memory.writeBytes, ih, readByte_writeByte, List.length_cons]
    by_cases h1 : x = a
    · subst h1; simp
    · by_cases h2 : a ≤ x
      · obtain ⟨k, rfl⟩ : ∃ k, x = a + 1 + k := ⟨x - (a + 1), by omega⟩
        have e1 : a + 1 + k - (a + 1) = k := by omega
        have e2 : a + 1 + k - a = k + 1 := by omega
        simp only [e1, e2, List.getD_cons_succ, h1, if_false]
        by_cases h3 : k < bs.length
        · rw [if_pos ⟨by omega, by omega⟩, if_pos ⟨by omega, by omega⟩]
        · rw [if_neg (by omega), if_neg (by omega)]
      · rw [if_neg (by omega), if_neg (by omega), if_neg (by omega)]

@[simp] theorem readBytes_length (m : Memory) (a n : Nat) : (m.readBytes a n).length = n := by
  induction n generalizing a with
  | zero => rfl
  | succ n ih => simp [Memory.readBytes, ih]

theorem readBytes_getElem? (m : Memory) (a n k : Nat) (h : k < n) :
    (m.readBytes a n)[k]? = some (m.readByte (a + k)) := by
  induction n generalizing a k with
  | zero => omega
  | succ n ih =>
    cases k with
    | zero => simp [Memory.readBytes]
    | succ k =>
      simp only [Memory.readBytes, List.getElem?_cons_succ, ih (a + 1) k (by omega)]
      congr 2; omega

/-- Reading a run of bytes just written gives them. -/
theorem readBytes_writeBytes (m : Memory) (a : Nat) (bs : List Byte) :
    (m.writeBytes a bs).readBytes a bs.length = bs := by
  apply List.ext_getElem?
  intro k
  by_cases h : k < bs.length
  · rw [readBytes_getElem? _ _ _ _ h, readByte_writeBytes, if_pos ⟨by omega, by omega⟩]
    simp [h]
  · rw [List.getElem?_eq_none (by simp; omega), List.getElem?_eq_none (by omega)]

/-- Byte k of a value written is bits 8k+7 to 8k of it (R204). -/
theorem readByte_writeBytes_leBytes (m : Memory) (a n k : Nat) (v : Word) (h : k < n) :
    (m.writeBytes a (leBytes n v)).readByte (a + k) = v.extractLsb' (8 * k) 8 := by
  rw [readByte_writeBytes, if_pos (by simp; omega), List.getD_eq_getElem?_getD, show a + k - a = k by omega,
    leBytes_getElem? _ _ _ h]
  rfl

/-- A value written leaves every byte outside its own alone (R204). -/
theorem readByte_writeBytes_outside (m : Memory) (a n b : Nat) (v : Word) (h : b < a ∨ a + n ≤ b) :
    (m.writeBytes a (leBytes n v)).readByte b = m.readByte b := by
  rw [readByte_writeBytes, if_neg (by simp; omega)]

/-! ## The checked accesses -/

/-- `MemRead` succeeds exactly when the access lies in memory. -/
theorem memRead_ok_iff (s : State) (addr : Word) (n : Nat) (v : Word) :
    s.memRead addr n = .ok v ↔ addr.toNat + n ≤ s.mem.size ∧ v = leWord (s.mem.readBytes addr.toNat n) := by
  simp only [State.memRead, Memory.inBounds]
  by_cases h : addr.toNat + n ≤ s.mem.size <;> simp [h, eq_comm]

/-- `MemRead` fails exactly when the access does not lie in memory, and then with AddressOutOfBounds(addr, n). -/
theorem memRead_error_iff (s : State) (addr : Word) (n : Nat) (e : ErrorKind) :
    s.memRead addr n = .error e ↔ s.mem.size < addr.toNat + n ∧ e = .addressOutOfBounds addr n := by
  simp only [State.memRead, Memory.inBounds]
  by_cases h : addr.toNat + n ≤ s.mem.size <;> simp [h, eq_comm]
  omega

/-- `MemWrite` succeeds exactly when the access lies in memory, and then writes the low bytes of the value. -/
theorem memWrite_ok_iff (s t : State) (addr : Word) (n : Nat) (v : Word) :
    s.memWrite addr n v = .ok t ↔
      addr.toNat + n ≤ s.mem.size ∧ t = { s with mem := s.mem.writeBytes addr.toNat (leBytes n v) } := by
  simp only [State.memWrite, Memory.inBounds]
  by_cases h : addr.toNat + n ≤ s.mem.size <;> simp [h, eq_comm]

/-- `MemWrite` fails exactly when the access does not lie in memory, and then with AddressOutOfBounds(addr, n). -/
theorem memWrite_error_iff (s : State) (addr : Word) (n : Nat) (v : Word) (e : ErrorKind) :
    s.memWrite addr n v = .error e ↔ s.mem.size < addr.toNat + n ∧ e = .addressOutOfBounds addr n := by
  simp only [State.memWrite, Memory.inBounds]
  by_cases h : addr.toNat + n ≤ s.mem.size <;> simp [h, eq_comm]
  omega

/-- `raw_pointer` succeeds exactly when the address lies in memory (R212). -/
theorem rawPointer_ok_iff (s : State) (addr : Word) (p : Nat) :
    s.rawPointer addr = .ok p ↔ addr.toNat < s.mem.size ∧ p = addr.toNat := by
  simp only [State.rawPointer, Memory.inBounds]
  by_cases h : addr.toNat + 1 ≤ s.mem.size <;> simp [h, eq_comm]
  all_goals omega

/-- `raw_pointer` fails exactly when the address does not lie in memory (R212). -/
theorem rawPointer_error_iff (s : State) (addr : Word) (e : ErrorKind) :
    s.rawPointer addr = .error e ↔ s.mem.size ≤ addr.toNat ∧ e = .addressOutOfBounds addr 1 := by
  simp only [State.rawPointer, Memory.inBounds]
  by_cases h : addr.toNat + 1 ≤ s.mem.size <;> simp [h, eq_comm]
  all_goals omega

/-- A checked write keeps the canonical form. -/
theorem memWrite_wf (s t : State) (addr : Word) (n : Nat) (v : Word) (h : s.mem.wf) (ok : s.memWrite addr n v = .ok t) :
    t.mem.wf := by
  obtain ⟨hb, rfl⟩ := (memWrite_ok_iff s t addr n v).mp ok
  exact writeBytes_wf _ _ _ h (by simpa using hb)

end Sys2Proof.Machine
end

