-- ==== Sys2Proof/Laws/State.lean ====
section
/-! SUPPORT. One lemma for each field of the state and each update of it, so that no proof unfolds a record update; and the
laws of the register file. -/

namespace Sys2Proof.Machine

/-! ## Fields after a register write -/

@[simp] theorem writeReg_cfg (s : State) (r v) : (s.writeReg r v).cfg = s.cfg := by unfold State.writeReg; split <;> rfl
@[simp] theorem writeReg_pc (s : State) (r v) : (s.writeReg r v).pc = s.pc := by unfold State.writeReg; split <;> rfl
@[simp] theorem writeReg_mem (s : State) (r v) : (s.writeReg r v).mem = s.mem := by unfold State.writeReg; split <;> rfl
@[simp] theorem writeReg_status (s : State) (r v) : (s.writeReg r v).status = s.status := by
  unfold State.writeReg; split <;> rfl
@[simp] theorem writeReg_trace (s : State) (r v) : (s.writeReg r v).trace = s.trace := by
  unfold State.writeReg; split <;> rfl
@[simp] theorem writeReg_oracle (s : State) (r v) : (s.writeReg r v).oracle = s.oracle := by
  unfold State.writeReg; split <;> rfl

/-! ## Fields after the other updates -/

@[simp] theorem advance_cfg (s : State) : s.advance.cfg = s.cfg := rfl
@[simp] theorem advance_regs (s : State) : s.advance.regs = s.regs := rfl
@[simp] theorem advance_pc (s : State) : s.advance.pc = s.pc + 4 := rfl
@[simp] theorem advance_mem (s : State) : s.advance.mem = s.mem := rfl
@[simp] theorem advance_status (s : State) : s.advance.status = s.status := rfl
@[simp] theorem advance_trace (s : State) : s.advance.trace = s.trace := rfl
@[simp] theorem advance_oracle (s : State) : s.advance.oracle = s.oracle := rfl
@[simp] theorem advance_readReg (s : State) (r) : s.advance.readReg r = s.readReg r := rfl

@[simp] theorem jumpTo_cfg (s : State) (a) : (s.jumpTo a).cfg = s.cfg := rfl
@[simp] theorem jumpTo_regs (s : State) (a) : (s.jumpTo a).regs = s.regs := rfl
@[simp] theorem jumpTo_pc (s : State) (a) : (s.jumpTo a).pc = a := rfl
@[simp] theorem jumpTo_mem (s : State) (a) : (s.jumpTo a).mem = s.mem := rfl
@[simp] theorem jumpTo_status (s : State) (a) : (s.jumpTo a).status = s.status := rfl
@[simp] theorem jumpTo_trace (s : State) (a) : (s.jumpTo a).trace = s.trace := rfl
@[simp] theorem jumpTo_oracle (s : State) (a) : (s.jumpTo a).oracle = s.oracle := rfl
@[simp] theorem jumpTo_readReg (s : State) (a r) : (s.jumpTo a).readReg r = s.readReg r := rfl

@[simp] theorem emit_cfg (s : State) (o i) : (s.emit o i).cfg = s.cfg := rfl
@[simp] theorem emit_regs (s : State) (o i) : (s.emit o i).regs = s.regs := rfl
@[simp] theorem emit_pc (s : State) (o i) : (s.emit o i).pc = s.pc := rfl
@[simp] theorem emit_mem (s : State) (o i) : (s.emit o i).mem = s.mem := rfl
@[simp] theorem emit_status (s : State) (o i) : (s.emit o i).status = s.status := rfl
@[simp] theorem emit_trace (s : State) (o i) : (s.emit o i).trace = s.trace ++ [{ stream := o, item := i }] := rfl
@[simp] theorem emit_oracle (s : State) (o i) : (s.emit o i).oracle = s.oracle := rfl
@[simp] theorem emit_readReg (s : State) (o i r) : (s.emit o i).readReg r = s.readReg r := rfl

@[simp] theorem restoreX0_cfg (s : State) : s.restoreX0.cfg = s.cfg := rfl
@[simp] theorem restoreX0_pc (s : State) : s.restoreX0.pc = s.pc := rfl
@[simp] theorem restoreX0_mem (s : State) : s.restoreX0.mem = s.mem := rfl
@[simp] theorem restoreX0_status (s : State) : s.restoreX0.status = s.status := rfl
@[simp] theorem restoreX0_trace (s : State) : s.restoreX0.trace = s.trace := rfl
@[simp] theorem restoreX0_oracle (s : State) : s.restoreX0.oracle = s.oracle := rfl

@[simp] theorem withStatus_readReg (s : State) (x r) : State.readReg { s with status := x } r = s.readReg r := rfl
@[simp] theorem withMem_readReg (s : State) (m r) : State.readReg { s with mem := m } r = s.readReg r := rfl
@[simp] theorem withOracle_readReg (s : State) (o r) : State.readReg { s with oracle := o } r = s.readReg r := rfl
@[simp] theorem withMemOracle_readReg (s : State) (m o r) :
    State.readReg { s with mem := m, oracle := o } r = s.readReg r := rfl

/-! ## The register file -/

/-- Register 0 reads 0 (R101). -/
@[simp] theorem readReg_zero (s : State) : s.readReg 0 = 0 := rfl

/-- A write to register 0 is discarded (R102). -/
@[simp] theorem writeReg_zero (s : State) (v : Word) : s.writeReg 0 v = s := rfl

/-- A register other than 0 reads as the value written to it. -/
theorem readReg_writeReg_same (s : State) (r : RegIdx) (v : Word) (h : r ≠ 0) : (s.writeReg r v).readReg r = v := by
  simp [State.readReg, State.writeReg, h]

/-- A register write leaves every other register alone. -/
theorem readReg_writeReg_other (s : State) (r q : RegIdx) (v : Word) (h : q ≠ r) :
    (s.writeReg r v).readReg q = s.readReg q := by
  have h' : ¬ r.val = q.val := fun e => h (Fin.ext e.symm)
  by_cases h0 : r = 0
  · simp [h0]
  · simp [State.readReg, State.writeReg, h0, h']

/-- Forcing register 0 changes what no register reads. -/
@[simp] theorem restoreX0_readReg (s : State) (q : RegIdx) : s.restoreX0.readReg q = s.readReg q := by
  by_cases h : q = 0
  · simp [h]
  · have h' : ¬ (0 : Nat) = q.val := fun e => h (Fin.ext e.symm)
    simp [State.readReg, State.restoreX0, h, h']

/-- After the force, the stored register 0 is 0 (R422). -/
@[simp] theorem restoreX0_stored (s : State) : s.restoreX0.regs[0] = 0 := by simp [State.restoreX0]

/-- A register write leaves the stored register 0 alone. -/
@[simp] theorem writeReg_stored_zero (s : State) (r : RegIdx) (v : Word) : (s.writeReg r v).regs[0] = s.regs[0] := by
  by_cases h0 : r = 0
  · simp [h0]
  · have h' : ¬ r.val = 0 := fun e => h0 (Fin.ext e)
    simp [State.writeReg, h0, h']

end Sys2Proof.Machine
end

