-- ==== Sys2Proof/Laws/Exec.lean ====
section
/-! SUPPORT. One lemma for each operation the instructions share, which says once everything it can do. Proofs about an
instruction cite these and do not unfold the operation. -/

namespace Sys2Proof.Machine

/-! ## The number a run of bytes stands for -/

/-- The word of up to four bytes of memory is the sum R202 gives. -/
theorem leWord_readBytes_toNat (m : Memory) (a n : Nat) (h : n ≤ 4) :
    (leWord (m.readBytes a n)).toNat = byteSum m a n := by
  induction n generalizing a with
  | zero => rfl
  | succ n ih =>
    have hl := leWord_lt (m.readBytes (a + 1) n) (by simp; omega)
    rw [readBytes_length] at hl
    rw [Memory.readBytes, leWord_toNat_cons, ih _ (by omega), byteSum]
    exact lt_of_lt_of_le hl (le_trans (Nat.pow_le_pow_right (by norm_num) (by omega : n ≤ 3)) (by norm_num))

/-! ## Register results -/

/-- The registers after `x[rd] <- v` (R16). -/
theorem writeReg_regsAfterWrite (s : State) (rd : RegIdx) (v : Word) : RegsAfterWrite rd v s (s.writeReg rd v) :=
  ⟨readReg_writeReg_same s rd v, readReg_zero _, fun q hq => readReg_writeReg_other s rd q v hq⟩

/-- Everything an instruction that computes into rd does. -/
theorem computesInto_of_writeResult {i : Instr} {rd : RegIdx} {f g : State → Word}
    (meaning : ∀ s, exec i s = writeResult rd (f s) s) (value : ∀ s, f s = g s) : ComputesInto i rd g := by
  intro s
  refine ⟨(s.writeReg rd (f s)).advance, meaning s, ?_, ?_, ?_, ?_⟩
  · rw [← value s]
    obtain ⟨h1, h2, h3⟩ := writeReg_regsAfterWrite s rd (f s)
    exact ⟨by simpa using h1, by simp, by simpa using h3⟩
  · simp
  · exact ⟨by simp, by simp⟩
  · exact ⟨by simp, by simp, by simp, by simp⟩

/-- Everything an instruction that only advances does. -/
theorem onlyAdvances_of_complete {i : Instr} (meaning : ∀ s, exec i s = complete s) : OnlyAdvances i :=
  fun s => ⟨s.advance, meaning s, fun r => by simp, by simp, ⟨rfl, fun _ => rfl⟩, rfl, rfl, rfl, rfl⟩

/-! ## Loads, stores, branches and jumps -/

/-- A load inside memory. -/
theorem loadInto_ok (n : Nat) (ext : Word → Word) (rd rs1 : RegIdx) (imm : Word) (s : State)
    (h : (s.readReg rs1 + imm).toNat + n ≤ s.mem.size) :
    loadInto n ext rd rs1 imm s =
      writeResult rd (ext (leWord (s.mem.readBytes (s.readReg rs1 + imm).toNat n))) s := by
  simp [loadInto, State.effectiveAddress, (memRead_ok_iff s (s.readReg rs1 + imm) n _).mpr ⟨h, rfl⟩]

/-- A load outside memory. -/
theorem loadInto_error (n : Nat) (ext : Word → Word) (rd rs1 : RegIdx) (imm : Word) (s : State)
    (h : s.mem.size < (s.readReg rs1 + imm).toNat + n) :
    loadInto n ext rd rs1 imm s = .next (FaultedFrom s (.addressOutOfBounds (s.readReg rs1 + imm) n)) := by
  simp [loadInto, State.effectiveAddress, (memRead_error_iff s (s.readReg rs1 + imm) n _).mpr ⟨h, rfl⟩, raise, FaultedFrom]

/-- A store inside memory. -/
theorem storeFrom_ok (n : Nat) (rs1 rs2 : RegIdx) (imm : Word) (s : State)
    (h : (s.readReg rs1 + imm).toNat + n ≤ s.mem.size) :
    storeFrom n rs1 rs2 imm s =
      complete { s with mem := s.mem.writeBytes (s.readReg rs1 + imm).toNat (leBytes n (s.readReg rs2)) } := by
  simp [storeFrom, State.effectiveAddress, (memWrite_ok_iff s _ (s.readReg rs1 + imm) n (s.readReg rs2)).mpr ⟨h, rfl⟩]

/-- A store outside memory. -/
theorem storeFrom_error (n : Nat) (rs1 rs2 : RegIdx) (imm : Word) (s : State)
    (h : s.mem.size < (s.readReg rs1 + imm).toNat + n) :
    storeFrom n rs1 rs2 imm s = .next (FaultedFrom s (.addressOutOfBounds (s.readReg rs1 + imm) n)) := by
  simp [storeFrom, State.effectiveAddress, (memWrite_error_iff s (s.readReg rs1 + imm) n (s.readReg rs2) _).mpr ⟨h, rfl⟩,
    raise, FaultedFrom]

/-- A branch only sets the pc. -/
theorem branchIf_eq (taken : Bool) (imm : Word) (s : State) :
    branchIf taken imm s = .next (s.jumpTo (if taken then s.pc + imm else s.pc + 4)) := by
  cases taken <;> rfl

/-- A load answers one of two things. -/
theorem loadInto_cases (n : Nat) (ext : Word → Word) (rd rs1 : RegIdx) (imm : Word) (s : State) :
    (∃ v, loadInto n ext rd rs1 imm s = writeResult rd v s) ∨ ∃ e, loadInto n ext rd rs1 imm s = .next (FaultedFrom s e) := by
  by_cases h : (s.readReg rs1 + imm).toNat + n ≤ s.mem.size
  · exact .inl ⟨_, loadInto_ok n ext rd rs1 imm s h⟩
  · exact .inr ⟨_, loadInto_error n ext rd rs1 imm s (by omega)⟩

/-- A store answers one of two things; if it writes, it writes inside memory. -/
theorem storeFrom_cases (n : Nat) (rs1 rs2 : RegIdx) (imm : Word) (s : State) :
    (∃ a bs, a + bs.length ≤ s.mem.size ∧
      storeFrom n rs1 rs2 imm s = complete { s with mem := s.mem.writeBytes a bs }) ∨
    ∃ e, storeFrom n rs1 rs2 imm s = .next (FaultedFrom s e) := by
  by_cases h : (s.readReg rs1 + imm).toNat + n ≤ s.mem.size
  · exact .inl ⟨_, _, by simpa using h, storeFrom_ok n rs1 rs2 imm s h⟩
  · exact .inr ⟨_, storeFrom_error n rs1 rs2 imm s (by omega)⟩

/-! ## System calls -/

/-- sbrk is a write of a0, with a0's own value where the argument is not 0. -/
theorem sbrkCall_eq (s : State) :
    sbrkCall s = if s.readReg regA0 = 0 then writeResult regA0 s.cfg.heapStart s else complete s := by
  unfold sbrkCall; split <;> rfl

/-- read word answers one of two things. -/
theorem readWordCall_cases (s : State) :
    (∃ v o, s.oracle.askWord = (.ok v, o) ∧ readWordCall s = writeResult regA0 v { s with oracle := o }) ∨
    (∃ o, s.oracle.askWord = (.fail, o) ∧ readWordCall s = .next (FaultedFrom s .inputError)) := by
  unfold readWordCall
  split
  · rename_i o h; exact .inr ⟨o, h, rfl⟩
  · rename_i v o h; exact .inl ⟨v, o, h, rfl⟩

/-- read string answers one of two things; if it writes, it writes a line inside memory. -/
theorem readStringCall_cases (s : State) :
    (∃ bs o, s.oracle.askLine s.cfg.readStrMax = (.ok bs, o) ∧ (s.readReg regA0).toNat + bs.length ≤ s.mem.size ∧
      readStringCall s = complete { s with mem := s.mem.writeBytes (s.readReg regA0).toNat bs, oracle := o }) ∨
    ∃ e, readStringCall s = .next (FaultedFrom s e) := by
  unfold readStringCall
  split
  · exact .inr ⟨_, rfl⟩
  · rename_i p hp
    obtain ⟨_, rfl⟩ := (rawPointer_ok_iff _ _ _).mp hp
    split
    · exact .inr ⟨_, rfl⟩
    · rename_i bs o h
      unfold storeLine
      split
      · exact .inr ⟨_, rfl⟩
      · exact .inl ⟨bs, o, h, by omega, rfl⟩

/-- write string answers one of two things. -/
theorem writeStringCall_cases (stream : Stream) (s : State) :
    (∃ bs, writeStringCall stream s = complete (s.emit stream (.bytes bs))) ∨
    ∃ e, writeStringCall stream s = .next (FaultedFrom s e) := by
  unfold writeStringCall
  split
  · exact .inr ⟨_, rfl⟩
  · split
    · exact .inr ⟨_, rfl⟩
    · exact .inl ⟨_, rfl⟩

/-- Everything ECALL can do (R850): an error, a write of a0, nothing, a line read into memory, an event, or an exit. -/
theorem execEcall_cases (s : State) :
    (∃ e, execEcall s = .next (FaultedFrom s e)) ∨
    (syscallOf s.cfg (s.readReg regA7) = some .sbrk ∧ execEcall s = sbrkCall s) ∨
    (syscallOf s.cfg (s.readReg regA7) = some .readWord ∧ ∃ v o, execEcall s = writeResult regA0 v { s with oracle := o }) ∨
    (syscallOf s.cfg (s.readReg regA7) = some .readString ∧ ∃ bs o, (s.readReg regA0).toNat + bs.length ≤ s.mem.size ∧
      execEcall s = complete { s with mem := s.mem.writeBytes (s.readReg regA0).toNat bs, oracle := o }) ∨
    (∃ stream item, execEcall s = complete (s.emit stream item)) ∨
    (syscallOf s.cfg (s.readReg regA7) = some .exit ∧ execEcall s = exitWith (s.readReg regA0) s) := by
  unfold execEcall
  cases h : syscallOf s.cfg (s.readReg regA7) with
  | none => exact .inl ⟨_, rfl⟩
  | some k =>
    cases k with
    | sbrk => exact .inr (.inl ⟨rfl, rfl⟩)
    | readWord =>
      rcases readWordCall_cases s with ⟨v, o, -, e⟩ | ⟨o, -, e⟩
      · exact .inr (.inr (.inl ⟨rfl, v, o, e⟩))
      · exact .inl ⟨_, e⟩
    | readString =>
      rcases readStringCall_cases s with ⟨bs, o, -, hl, e⟩ | ⟨_, e⟩
      · exact .inr (.inr (.inr (.inl ⟨rfl, bs, o, hl, e⟩)))
      · exact .inl ⟨_, e⟩
    | writeWord => exact .inr (.inr (.inr (.inr (.inl ⟨_, _, rfl⟩))))
    | writeWordErr => exact .inr (.inr (.inr (.inr (.inl ⟨_, _, rfl⟩))))
    | writeString =>
      rcases writeStringCall_cases .stdout s with ⟨bs, e⟩ | ⟨_, e⟩
      · exact .inr (.inr (.inr (.inr (.inl ⟨_, _, e⟩))))
      · exact .inl ⟨_, e⟩
    | writeStringErr =>
      rcases writeStringCall_cases .stderr s with ⟨bs, e⟩ | ⟨_, e⟩
      · exact .inr (.inr (.inr (.inr (.inl ⟨_, _, e⟩))))
      · exact .inl ⟨_, e⟩
    | exit => exact .inr (.inr (.inr (.inr (.inr ⟨rfl, rfl⟩))))

/-- Under legal parameters each selector names its own system call: the lookup is the table of R852. -/
theorem syscallOf_selectors (c : Config) (h : c.wf) :
    syscallOf c c.sysSbrk = some .sbrk ∧ syscallOf c c.sysReadWord = some .readWord ∧
    syscallOf c c.sysReadString = some .readString ∧ syscallOf c c.sysWriteWord = some .writeWord ∧
    syscallOf c c.sysWriteString = some .writeString ∧ syscallOf c c.sysWriteWordErr = some .writeWordErr ∧
    syscallOf c c.sysWriteStringErr = some .writeStringErr ∧ syscallOf c c.sysExit = some .exit := by
  have hn := h.1
  simp only [Config.selectors, List.nodup_cons, List.mem_cons, List.not_mem_nil, or_false, not_or] at hn
  obtain ⟨h1, h2, h3, h4, h5, h6, h7, -⟩ := hn
  simp [syscallOf, Ne.symm, h1, h2, h3, h4, h5, h6, h7, eq_comm]

/-- A word that is no selector names no system call. -/
theorem syscallOf_eq_none (c : Config) (w : Word) : syscallOf c w = none ↔ w ∉ c.selectors := by
  unfold syscallOf Config.selectors
  simp only [List.mem_cons, List.not_mem_nil, or_false, not_or]
  repeat' split
  all_goals simp_all

/-! ## One instruction -/

/-- Everything one instruction can do: raise an error; set its destination register and the pc; set the pc alone; store
inside memory; or, for ECALL, read a word or a line, emit an event, or exit. -/
theorem exec_cases (i : Instr) (s : State) :
    (∃ e, exec i s = .next (FaultedFrom s e)) ∨
    (i ≠ .ecall ∧ ∃ rd v a, destination i = some rd ∧ exec i s = .next ((s.writeReg rd v).jumpTo a)) ∨
    (∃ a, exec i s = .next (s.jumpTo a)) ∨
    (isStore i = true ∧ ∃ a bs, a + bs.length ≤ s.mem.size ∧
      exec i s = complete { s with mem := s.mem.writeBytes a bs }) ∨
    (i = .ecall ∧
      ((syscallOf s.cfg (s.readReg regA7) = some .sbrk ∧ exec i s = writeResult regA0 s.cfg.heapStart s) ∨
       (syscallOf s.cfg (s.readReg regA7) = some .readWord ∧
        ∃ v o, exec i s = writeResult regA0 v { s with oracle := o }) ∨
       (syscallOf s.cfg (s.readReg regA7) = some .readString ∧ ∃ bs o, (s.readReg regA0).toNat + bs.length ≤ s.mem.size ∧
        exec i s = complete { s with mem := s.mem.writeBytes (s.readReg regA0).toNat bs, oracle := o }) ∨
       (∃ stream item, exec i s = complete (s.emit stream item)) ∨
       (syscallOf s.cfg (s.readReg regA7) = some .exit ∧ exec i s = exitWith (s.readReg regA0) s))) := by
  have branch : ∀ taken imm, branchIf taken imm s = .next (s.jumpTo (if taken then s.pc + imm else s.pc + 4)) :=
    fun taken imm => branchIf_eq taken imm s
  cases i
  case ecall =>
    rcases execEcall_cases s with h | ⟨h1, h2⟩ | h | h | h | h
    · exact .inl h
    · rw [sbrkCall_eq] at h2
      split at h2
      · exact .inr (.inr (.inr (.inr ⟨rfl, .inl ⟨h1, h2⟩⟩)))
      · exact .inr (.inr (.inl ⟨_, h2⟩))
    · exact .inr (.inr (.inr (.inr ⟨rfl, .inr (.inl h)⟩)))
    · exact .inr (.inr (.inr (.inr ⟨rfl, .inr (.inr (.inl h))⟩)))
    · exact .inr (.inr (.inr (.inr ⟨rfl, .inr (.inr (.inr (.inl h)))⟩)))
    · exact .inr (.inr (.inr (.inr ⟨rfl, .inr (.inr (.inr (.inr h)))⟩)))
  case add | sub | sll | slt | sltu | xor | srl | sra | or | and | addi | slti | sltiu | xori | ori | andi | slli | srli
      | srai | lui | auipc =>
    exact .inr (.inl ⟨by simp, _, _, s.pc + 4, rfl, by
      refine congrArg Host.Outcome.next ?_; unfold State.advance State.jumpTo; rw [writeReg_pc]⟩)
  case jal | jalr => exact .inr (.inl ⟨by simp, _, _, _, rfl, rfl⟩)
  case lb | lh | lw | lbu | lhu =>
    rcases loadInto_cases _ _ _ _ _ s with ⟨v, h⟩ | ⟨e, h⟩
    · refine .inr (.inl ⟨by simp, _, v, s.pc + 4, rfl, ?_⟩)
      refine Eq.trans h (congrArg Host.Outcome.next ?_)
      unfold State.advance State.jumpTo; rw [writeReg_pc]
    · exact .inl ⟨e, h⟩
  case sb | sh | sw =>
    rcases storeFrom_cases _ _ _ _ s with ⟨a, bs, ha, h⟩ | ⟨e, h⟩
    · exact .inr (.inr (.inr (.inl ⟨rfl, a, bs, ha, h⟩)))
    · exact .inl ⟨e, h⟩
  case beq | bne | blt | bge | bltu | bgeu => exact .inr (.inr (.inl ⟨_, branch _ _⟩))
  case fence | fenceI | ebreak | csrrw | csrrs | csrrc | csrrwi | csrrsi | csrrci =>
    exact .inr (.inr (.inl ⟨s.pc + 4, rfl⟩))

/-! ## The step -/

/-- Everything a step of a running CORE can do: the fetch fails, the word is illegal, or the instruction it decodes to
runs, and register 0 is forced if the run goes on. -/
theorem step_cases (s : State) (h : s.status = .running) :
    (∃ e, fetch s = .error e ∧ step s = .next (FaultedFrom s e)) ∨
    (∃ w, fetch s = .ok w ∧ step s = afterDispatch (execute (decode s.cfg w) s)) := by
  unfold step stepWhenRunning cycle
  rw [h]
  cases hf : fetch s with
  | error e => exact .inl ⟨e, rfl, rfl⟩
  | ok w => exact .inr ⟨w, rfl, rfl⟩

/-- A CORE whose run has ended takes no step (R121). -/
theorem step_ended (s : State) (h : s.status ≠ .running) : step s = .fault (.runEnded s.status) := by
  unfold step stepWhenRunning
  cases hs : s.status with
  | running => exact absurd hs h
  | exited v => rfl
  | faulted e => rfl

end Sys2Proof.Machine
end

