-- ==== Sys2Proof/Laws/PerInstr.lean ====
section
/-! SUPPORT. Statements made for every instruction, one lemma for each constructor. -/

namespace Sys2Proof.Laws.EncodingGroup

/-- The opcode group of R330 an instruction belongs to. -/
def group : Instr → BitVec 7
  | .add _ _ _ | .sub _ _ _ | .sll _ _ _ | .slt _ _ _ | .sltu _ _ _ => 0b0110011#7
  | .xor _ _ _ | .srl _ _ _ | .sra _ _ _ | .or _ _ _ | .and _ _ _ => 0b0110011#7
  | .addi _ _ _ | .slti _ _ _ | .sltiu _ _ _ | .xori _ _ _ | .ori _ _ _ => 0b0010011#7
  | .andi _ _ _ | .slli _ _ _ | .srli _ _ _ | .srai _ _ _ => 0b0010011#7
  | .lb _ _ _ | .lh _ _ _ | .lw _ _ _ | .lbu _ _ _ | .lhu _ _ _ => 0b0000011#7
  | .sb _ _ _ | .sh _ _ _ | .sw _ _ _ => 0b0100011#7
  | .beq _ _ _ | .bne _ _ _ | .blt _ _ _ | .bge _ _ _ | .bltu _ _ _ => 0b1100011#7
  | .bgeu _ _ _ => 0b1100011#7
  | .lui _ _ => 0b0110111#7
  | .auipc _ _ => 0b0010111#7
  | .jal _ _ => 0b1101111#7
  | .jalr _ _ _ => 0b1100111#7
  | .fence | .fenceI => 0b0001111#7
  | .ecall | .ebreak | .csrrw _ _ _ | .csrrs _ _ _ | .csrrc _ _ _ => 0b1110011#7
  | .csrrwi _ _ _ | .csrrsi _ _ _ | .csrrci _ _ _ => 0b1110011#7

/-- The word of the instruction has the instruction's opcode group in its low seven bits, for all legal parameters. -/
def Statement (i : Instr) : Prop := ∀ c : Config, c.wf → groupField (encode c i) = group i

theorem add (rd rs1 rs2 : RegIdx) : Statement (.add rd rs1 rs2) :=
  fun _ _ => groupField_encodeR ..
theorem sub (rd rs1 rs2 : RegIdx) : Statement (.sub rd rs1 rs2) :=
  fun _ _ => groupField_encodeR ..
theorem sll (rd rs1 rs2 : RegIdx) : Statement (.sll rd rs1 rs2) :=
  fun _ _ => groupField_encodeR ..
theorem slt (rd rs1 rs2 : RegIdx) : Statement (.slt rd rs1 rs2) :=
  fun _ _ => groupField_encodeR ..
theorem sltu (rd rs1 rs2 : RegIdx) : Statement (.sltu rd rs1 rs2) :=
  fun _ _ => groupField_encodeR ..
theorem xor (rd rs1 rs2 : RegIdx) : Statement (.xor rd rs1 rs2) :=
  fun _ _ => groupField_encodeR ..
theorem srl (rd rs1 rs2 : RegIdx) : Statement (.srl rd rs1 rs2) :=
  fun _ _ => groupField_encodeR ..
theorem sra (rd rs1 rs2 : RegIdx) : Statement (.sra rd rs1 rs2) :=
  fun _ _ => groupField_encodeR ..
theorem or (rd rs1 rs2 : RegIdx) : Statement (.or rd rs1 rs2) :=
  fun _ _ => groupField_encodeR ..
theorem and (rd rs1 rs2 : RegIdx) : Statement (.and rd rs1 rs2) :=
  fun _ _ => groupField_encodeR ..
theorem addi (rd rs1 : RegIdx) (imm : Word) : Statement (.addi rd rs1 imm) :=
  fun _ _ => groupField_encodeI ..
theorem slti (rd rs1 : RegIdx) (imm : Word) : Statement (.slti rd rs1 imm) :=
  fun _ _ => groupField_encodeI ..
theorem sltiu (rd rs1 : RegIdx) (imm : Word) : Statement (.sltiu rd rs1 imm) :=
  fun _ _ => groupField_encodeI ..
theorem xori (rd rs1 : RegIdx) (imm : Word) : Statement (.xori rd rs1 imm) :=
  fun _ _ => groupField_encodeI ..
theorem ori (rd rs1 : RegIdx) (imm : Word) : Statement (.ori rd rs1 imm) :=
  fun _ _ => groupField_encodeI ..
theorem andi (rd rs1 : RegIdx) (imm : Word) : Statement (.andi rd rs1 imm) :=
  fun _ _ => groupField_encodeI ..
theorem slli (rd rs1 : RegIdx) (shamt : BitVec 5) : Statement (.slli rd rs1 shamt) :=
  fun _ _ => groupField_encodeR ..
theorem srli (rd rs1 : RegIdx) (shamt : BitVec 5) : Statement (.srli rd rs1 shamt) :=
  fun _ _ => groupField_encodeR ..
theorem srai (rd rs1 : RegIdx) (shamt : BitVec 5) : Statement (.srai rd rs1 shamt) :=
  fun _ _ => groupField_encodeR ..
theorem lb (rd rs1 : RegIdx) (imm : Word) : Statement (.lb rd rs1 imm) :=
  fun _ _ => groupField_encodeI ..
theorem lh (rd rs1 : RegIdx) (imm : Word) : Statement (.lh rd rs1 imm) :=
  fun _ _ => groupField_encodeI ..
theorem lw (rd rs1 : RegIdx) (imm : Word) : Statement (.lw rd rs1 imm) :=
  fun _ _ => groupField_encodeI ..
theorem lbu (rd rs1 : RegIdx) (imm : Word) : Statement (.lbu rd rs1 imm) :=
  fun _ _ => groupField_encodeI ..
theorem lhu (rd rs1 : RegIdx) (imm : Word) : Statement (.lhu rd rs1 imm) :=
  fun _ _ => groupField_encodeI ..
theorem sb (rs1 rs2 : RegIdx) (imm : Word) : Statement (.sb rs1 rs2 imm) :=
  fun _ _ => groupField_encodeS ..
theorem sh (rs1 rs2 : RegIdx) (imm : Word) : Statement (.sh rs1 rs2 imm) :=
  fun _ _ => groupField_encodeS ..
theorem sw (rs1 rs2 : RegIdx) (imm : Word) : Statement (.sw rs1 rs2 imm) :=
  fun _ _ => groupField_encodeS ..
theorem beq (rs1 rs2 : RegIdx) (imm : Word) : Statement (.beq rs1 rs2 imm) :=
  fun _ _ => groupField_encodeB ..
theorem bne (rs1 rs2 : RegIdx) (imm : Word) : Statement (.bne rs1 rs2 imm) :=
  fun _ _ => groupField_encodeB ..
theorem blt (rs1 rs2 : RegIdx) (imm : Word) : Statement (.blt rs1 rs2 imm) :=
  fun _ _ => groupField_encodeB ..
theorem bge (rs1 rs2 : RegIdx) (imm : Word) : Statement (.bge rs1 rs2 imm) :=
  fun _ _ => groupField_encodeB ..
theorem bltu (rs1 rs2 : RegIdx) (imm : Word) : Statement (.bltu rs1 rs2 imm) :=
  fun _ _ => groupField_encodeB ..
theorem bgeu (rs1 rs2 : RegIdx) (imm : Word) : Statement (.bgeu rs1 rs2 imm) :=
  fun _ _ => groupField_encodeB ..
theorem lui (rd : RegIdx) (imm : Word) : Statement (.lui rd imm) :=
  fun _ _ => groupField_encodeU ..
theorem auipc (rd : RegIdx) (imm : Word) : Statement (.auipc rd imm) :=
  fun _ _ => groupField_encodeU ..
theorem jal (rd : RegIdx) (imm : Word) : Statement (.jal rd imm) :=
  fun _ _ => groupField_encodeJ ..
theorem jalr (rd rs1 : RegIdx) (imm : Word) : Statement (.jalr rd rs1 imm) :=
  fun _ _ => groupField_encodeI ..
theorem fence : Statement .fence :=
  fun _ h => (BitVec.setWidth_eq_extractLsb' (by decide)).symm.trans h.2.1
theorem fenceI : Statement .fenceI :=
  fun _ h => (BitVec.setWidth_eq_extractLsb' (by decide)).symm.trans h.2.2.1
theorem ecall : Statement .ecall :=
  fun _ _ => (by decide : groupField 0x00000073 = 0b1110011#7)
theorem ebreak : Statement .ebreak :=
  fun _ _ => (by decide : groupField 0x00100073 = 0b1110011#7)
theorem csrrw (rd rs1 : RegIdx) (csr : BitVec 12) : Statement (.csrrw rd rs1 csr) :=
  fun _ _ => groupField_encodeI ..
theorem csrrs (rd rs1 : RegIdx) (csr : BitVec 12) : Statement (.csrrs rd rs1 csr) :=
  fun _ _ => groupField_encodeI ..
theorem csrrc (rd rs1 : RegIdx) (csr : BitVec 12) : Statement (.csrrc rd rs1 csr) :=
  fun _ _ => groupField_encodeI ..
theorem csrrwi (rd : RegIdx) (uimm : BitVec 5) (csr : BitVec 12) : Statement (.csrrwi rd uimm csr) :=
  fun _ _ => groupField_encodeI ..
theorem csrrsi (rd : RegIdx) (uimm : BitVec 5) (csr : BitVec 12) : Statement (.csrrsi rd uimm csr) :=
  fun _ _ => groupField_encodeI ..
theorem csrrci (rd : RegIdx) (uimm : BitVec 5) (csr : BitVec 12) : Statement (.csrrci rd uimm csr) :=
  fun _ _ => groupField_encodeI ..

end Sys2Proof.Laws.EncodingGroup
end

