-- ==== Sys2Proof/Tests/Slice0.lean ====
section
/-! SUPPORT. Tests: every expected value is one the spec writes out (95_test_vectors.md, by section and row) or follows from
a table of it by hand. Then, for each statement with hypotheses, a state and operands that meet them. -/

namespace Sys2Proof.Tests

open Sys2Proof.Machine

/-! ## Helpers -/

/-- The common setup of 95_test_vectors.md section 2.0, with a word at pc 0x100, some registers and some bytes set. -/
def start (w : Word) (regs : List (RegIdx × Word)) (bytes : Nat × List Byte) : State :=
  let m : Memory := { size := 0x200, cells := [] }
  let s : State := { State.reset with
    pc := 0x100, mem := (m.writeBytes 0x100 (leBytes 4 w)).writeBytes bytes.1 bytes.2 }
  regs.foldl (fun t r => t.writeReg r.1 r.2) s

/-- No bytes set but the instruction's. -/
def noBytes : Nat × List Byte := (0, [])

/-- The bytes section 2.3 sets. -/
def loadBytes : Nat × List Byte := (0x180, [0x80, 0x7F, 0xFF, 0x01, 0x34, 0x12, 0x00, 0x00])

/-- A result is a next state with a property. -/
def endsIn (r : Result) (p : State → Bool) : Bool :=
  match r with
  | .next t => p t
  | .fault _ => false
  | .refused _ => false

/-- A result that is a next state with a property is some such state. -/
theorem exists_of_endsIn {r : Result} {p : State → Bool} (h : endsIn r p = true) : ∃ t, r = .next t ∧ p t = true := by
  cases r with
  | next t => exact ⟨t, rfl, h⟩
  | fault f => cases h
  | refused f => cases h

/-- A state in which a register and the pc have given values, memory is as it was and the run goes on. -/
def holds (s : State) (r : RegIdx) (v pc : Word) (t : State) : Bool :=
  t.readReg r = v && t.pc = pc && t.mem = s.mem && t.status = .running

/-- One step of a word from the common setup leaves a register and the pc at given values. -/
def gives (w : Word) (regs : List (RegIdx × Word)) (bytes : Nat × List Byte) (r : RegIdx) (v pc : Word) : Bool :=
  endsIn (step (start w regs bytes)) (holds (start w regs bytes) r v pc)

/-- One step of a word leaves the run faulted, with the pc, the registers and memory as they were. -/
def faults (w : Word) (regs : List (RegIdx × Word)) (bytes : Nat × List Byte) (e : ErrorKind) : Bool :=
  endsIn (step (start w regs bytes)) (fun t => t = FaultedFrom (start w regs bytes) e)

/-! ## Well-formedness: an ill-formed term for each check -/

theorem test_wellFormed_refuses_I_above : (Instr.addi 1 2 2048).wellFormed = false := by decide
theorem test_wellFormed_refuses_I_below : (Instr.lw 1 2 0xFFFFF7FF).wellFormed = false := by decide
theorem test_wellFormed_refuses_S_above : (Instr.sw 1 2 2048).wellFormed = false := by decide
theorem test_wellFormed_refuses_B_odd : (Instr.beq 1 2 3).wellFormed = false := by decide
theorem test_wellFormed_refuses_B_above : (Instr.bne 1 2 4096).wellFormed = false := by decide
theorem test_wellFormed_refuses_B_below : (Instr.blt 1 2 0xFFFFEFFE).wellFormed = false := by decide
theorem test_wellFormed_refuses_U_low_bits : (Instr.lui 1 0x12345001).wellFormed = false := by decide
theorem test_wellFormed_refuses_J_odd : (Instr.jal 1 1).wellFormed = false := by decide
theorem test_wellFormed_refuses_J_above : (Instr.jal 1 0x00100000).wellFormed = false := by decide
theorem test_wellFormed_refuses_J_below : (Instr.jal 1 0xFFEFFFFE).wellFormed = false := by decide

/-! ## Reset -/

theorem test_reset_memory_wf : State.reset.mem.wf := by decide

theorem test_reset_running : State.reset.status = .running := by decide

/-! ## Decoding: a word written out from the spec for every constructor -/

/-- Section 2.1. -/
theorem test_decode_registerRegister :
    decodeInstr defaultConfig 0x007302B3 = some (.add 5 6 7) ∧
    decodeInstr defaultConfig 0x407302B3 = some (.sub 5 6 7) ∧
    decodeInstr defaultConfig 0x007312B3 = some (.sll 5 6 7) ∧
    decodeInstr defaultConfig 0x007322B3 = some (.slt 5 6 7) ∧
    decodeInstr defaultConfig 0x007332B3 = some (.sltu 5 6 7) ∧
    decodeInstr defaultConfig 0x007342B3 = some (.xor 5 6 7) ∧
    decodeInstr defaultConfig 0x007352B3 = some (.srl 5 6 7) ∧
    decodeInstr defaultConfig 0x407352B3 = some (.sra 5 6 7) ∧
    decodeInstr defaultConfig 0x007362B3 = some (.or 5 6 7) ∧
    decodeInstr defaultConfig 0x007372B3 = some (.and 5 6 7) := by decide

/-- Section 2.2. -/
theorem test_decode_immediate :
    decodeInstr defaultConfig 0x80030293 = some (.addi 5 6 0xFFFFF800) ∧
    decodeInstr defaultConfig 0xFFF32293 = some (.slti 5 6 0xFFFFFFFF) ∧
    decodeInstr defaultConfig 0x00133293 = some (.sltiu 5 6 1) ∧
    decodeInstr defaultConfig 0xFFF34293 = some (.xori 5 6 0xFFFFFFFF) ∧
    decodeInstr defaultConfig 0x0F036293 = some (.ori 5 6 0xF0) ∧
    decodeInstr defaultConfig 0x7FF37293 = some (.andi 5 6 2047) ∧
    decodeInstr defaultConfig 0x01F31293 = some (.slli 5 6 31) ∧
    decodeInstr defaultConfig 0x00435293 = some (.srli 5 6 4) ∧
    decodeInstr defaultConfig 0x41F35293 = some (.srai 5 6 31) := by decide

/-- Section 2.3. -/
theorem test_decode_load :
    decodeInstr defaultConfig 0x00230283 = some (.lb 5 6 2) ∧
    decodeInstr defaultConfig 0x00131283 = some (.lh 5 6 1) ∧
    decodeInstr defaultConfig 0xFFC32283 = some (.lw 5 6 0xFFFFFFFC) ∧
    decodeInstr defaultConfig 0x00234283 = some (.lbu 5 6 2) ∧
    decodeInstr defaultConfig 0x00235283 = some (.lhu 5 6 2) := by decide

/-- Section 2.4. -/
theorem test_decode_store :
    decodeInstr defaultConfig 0xFE730FA3 = some (.sb 6 7 0xFFFFFFFF) ∧
    decodeInstr defaultConfig 0x007310A3 = some (.sh 6 7 1) ∧
    decodeInstr defaultConfig 0x00732023 = some (.sw 6 7 0) := by decide

/-- Section 2.5. -/
theorem test_decode_branch :
    decodeInstr defaultConfig 0x80000063 = some (.beq 0 0 0xFFFFF000) ∧
    decodeInstr defaultConfig 0x00731863 = some (.bne 6 7 16) ∧
    decodeInstr defaultConfig 0x00734863 = some (.blt 6 7 16) ∧
    decodeInstr defaultConfig 0x00735863 = some (.bge 6 7 16) ∧
    decodeInstr defaultConfig 0x00736863 = some (.bltu 6 7 16) ∧
    decodeInstr defaultConfig 0x00737863 = some (.bgeu 6 7 16) := by decide

/-- Section 2.6. -/
theorem test_decode_upperImmediate :
    decodeInstr defaultConfig 0x123450B7 = some (.lui 1 0x12345000) ∧
    decodeInstr defaultConfig 0xFFFFF297 = some (.auipc 5 0xFFFFF000) := by decide

/-- Section 2.7. -/
theorem test_decode_jump :
    decodeInstr defaultConfig 0x7FFFF06F = some (.jal 0 0x000FFFFE) ∧
    decodeInstr defaultConfig 0xFFF00067 = some (.jalr 0 0 0xFFFFFFFF) := by decide

/-- Section 2.8. -/
theorem test_decode_fence :
    decodeInstr defaultConfig 0x0FF0000F = some (.fence) ∧
    decodeInstr defaultConfig 0x0000100F = some (.fenceI) := by decide

/-- Section 2.9. -/
theorem test_decode_system :
    decodeInstr defaultConfig 0x00000073 = some (.ecall) ∧
    decodeInstr defaultConfig 0x00100073 = some (.ebreak) ∧
    decodeInstr defaultConfig 0x300312F3 = some (.csrrw 5 6 0x300) ∧
    decodeInstr defaultConfig 0xC00022F3 = some (.csrrs 5 0 0xC00) ∧
    decodeInstr defaultConfig 0x300332F3 = some (.csrrc 5 6 0x300) ∧
    decodeInstr defaultConfig 0x340FD2F3 = some (.csrrwi 5 31 0x340) ∧
    decodeInstr defaultConfig 0x3400E2F3 = some (.csrrsi 5 1 0x340) ∧
    decodeInstr defaultConfig 0x3400F2F3 = some (.csrrci 5 1 0x340) := by decide

/-- Sections 1.3 and 2.1 to 2.9: words that are no instruction. -/
theorem test_decode_illegal :
    [0x027302B3, 0x407312B3, 0x02431293, 0x20435293, 0x42435293, 0x00033283, 0x00733023, 0x00732863, 0x000310E7,
      0x0330000F, 0x8330000F, 0x0100000F, 0x0000000F, 0x30200073, 0x10500073, 0x00000173, 0x00008073, 0x00300073,
      0x00004073].all (fun w => (decodeInstr defaultConfig w).isNone) = true := by decide

/-- A word of the opcode table is given to the decoder as bytes in memory order. -/
theorem test_decodeTableWord : decodeTableWord 32 0x80000063 = some (.beq 0 0 0xFFFFF000) := by decide

/-! ## One step -/

/-- Section 2.1 row 3. -/
theorem test_add_wraps : gives 0x007302B3 [(6, 0xFFFFFFFF), (7, 1)] noBytes 5 0 0x104 = true := by decide

/-- Section 2.1 row 4. -/
theorem test_add_source_is_destination : gives 0x005282B3 [(5, 3)] noBytes 5 6 0x104 = true := by decide

/-- Section 2.1 row 5. -/
theorem test_add_to_x0 : gives 0x00730033 [(6, 5), (7, 7)] noBytes 0 0 0x104 = true := by decide

/-- Section 2.1 row 7. -/
theorem test_sub_borrows : gives 0x407302B3 [(6, 0), (7, 1)] noBytes 5 0xFFFFFFFF 0x104 = true := by decide

/-- Section 2.1 row 9. -/
theorem test_sll_masks_amount : gives 0x007312B3 [(6, 0x12345678), (7, 0xFFFFFFE4)] noBytes 5 0x23456780 0x104 = true := by decide

/-- Section 2.1 row 13. -/
theorem test_slt_signed : gives 0x007322B3 [(5, 9), (6, 1), (7, 0xFFFFFFFF)] noBytes 5 0 0x104 = true := by decide

/-- Section 2.1 row 16. -/
theorem test_sltu_unsigned : gives 0x007332B3 [(6, 1), (7, 0xFFFFFFFF)] noBytes 5 1 0x104 = true := by decide

/-- Section 2.1 row 18. -/
theorem test_xor : gives 0x007342B3 [(6, 0xFF00FF00), (7, 0x0FF00FF0)] noBytes 5 0xF0F0F0F0 0x104 = true := by decide

/-- Section 2.1 row 20. -/
theorem test_srl_masks_amount : gives 0x007352B3 [(6, 0x80000000), (7, 0x21)] noBytes 5 0x40000000 0x104 = true := by decide

/-- Section 2.1 row 21. -/
theorem test_sra_fills_sign : gives 0x407352B3 [(6, 0x80000000), (7, 4)] noBytes 5 0xF8000000 0x104 = true := by decide

/-- Section 2.1 row 24. -/
theorem test_or : gives 0x007362B3 [(6, 0xF0F0F0F0), (7, 0x0F0F0F0F)] noBytes 5 0xFFFFFFFF 0x104 = true := by decide

/-- Section 2.1 row 25. -/
theorem test_and : gives 0x007372B3 [(6, 0xF0F0F0F0), (7, 0x3C3C3C3C)] noBytes 5 0x30303030 0x104 = true := by decide

/-- Section 2.2 row 4. -/
theorem test_addi_sign_extends : gives 0x80030293 [(6, 0)] noBytes 5 0xFFFFF800 0x104 = true := by decide

/-- Section 2.2 row 6. -/
theorem test_slti_signed : gives 0xFFF32293 [(6, 0xFFFFFFFE)] noBytes 5 1 0x104 = true := by decide

/-- Section 2.2 row 9. -/
theorem test_sltiu_extends_then_compares : gives 0xFFF33293 [(6, 0xFFFFFFFE)] noBytes 5 1 0x104 = true := by decide

/-- Section 2.2 row 11. -/
theorem test_xori : gives 0xFFF34293 [(6, 0x12345678)] noBytes 5 0xEDCBA987 0x104 = true := by decide

/-- Section 2.2 row 13. -/
theorem test_ori : gives 0x80036293 [(6, 0)] noBytes 5 0xFFFFF800 0x104 = true := by decide

/-- Section 2.2 row 15. -/
theorem test_andi : gives 0xFF037293 [(6, 0x12345678)] noBytes 5 0x12345670 0x104 = true := by decide

/-- Section 2.2 row 17. -/
theorem test_slli : gives 0x01F31293 [(6, 3)] noBytes 5 0x80000000 0x104 = true := by decide

/-- Section 2.2 row 18. -/
theorem test_srli : gives 0x00435293 [(6, 0x80000000)] noBytes 5 0x08000000 0x104 = true := by decide

/-- Section 2.2 row 20. -/
theorem test_srai : gives 0x40435293 [(6, 0x80000000)] noBytes 5 0xF8000000 0x104 = true := by decide

/-- Section 2.3 row 1. -/
theorem test_lb : gives 0x00030283 [(6, 0x180)] loadBytes 5 0xFFFFFF80 0x104 = true := by decide

/-- Section 2.3 row 6. -/
theorem test_lh_unaligned : gives 0x00131283 [(6, 0x180)] loadBytes 5 0xFFFFFF7F 0x104 = true := by decide

/-- Section 2.3 row 9. -/
theorem test_lw_unaligned : gives 0x00132283 [(6, 0x180)] loadBytes 5 0x3401FF7F 0x104 = true := by decide

/-- Section 2.3 row 11. -/
theorem test_lw_address_wraps : gives 0x18132283 [(6, 0xFFFFFFFF)] loadBytes 5 0x01FF7F80 0x104 = true := by decide

/-- Section 2.3 row 17. -/
theorem test_lbu : gives 0x00234283 [(6, 0x180)] loadBytes 5 0xFF 0x104 = true := by decide

/-- Section 2.3 row 19. -/
theorem test_lhu : gives 0x00135283 [(6, 0x180)] loadBytes 5 0xFF7F 0x104 = true := by decide

/-- Section 2.5 row 14. -/
theorem test_beq_taken_backwards : gives 0xFE000CE3 [] noBytes 0 0 0xF8 = true := by decide

/-- Section 2.5 row 2. -/
theorem test_beq_not_taken : gives 0x00730863 [(6, 0xFFFFFFFF), (7, 1)] noBytes 0 0 0x104 = true := by decide

/-- Section 2.5 row 4. -/
theorem test_bne_taken : gives 0x00731863 [(6, 1), (7, 0xFFFFFFFF)] noBytes 0 0 0x110 = true := by decide

/-- Section 2.5 row 5. -/
theorem test_blt_signed : gives 0x00734863 [(6, 0xFFFFFFFF), (7, 1)] noBytes 0 0 0x110 = true := by decide

/-- Section 2.5 row 8. -/
theorem test_bge_equal : gives 0x00735863 [(6, 5), (7, 5)] noBytes 0 0 0x110 = true := by decide

/-- Section 2.5 row 10. -/
theorem test_bltu_unsigned : gives 0x00736863 [(6, 1), (7, 0xFFFFFFFF)] noBytes 0 0 0x110 = true := by decide

/-- Section 2.5 row 12. -/
theorem test_bgeu_unsigned : gives 0x00737863 [(6, 0xFFFFFFFF), (7, 1)] noBytes 0 0 0x110 = true := by decide

/-- Section 2.6 row 1. -/
theorem test_lui : gives 0x123450B7 [] noBytes 1 0x12345000 0x104 = true := by decide

/-- Section 2.6 row 7. -/
theorem test_auipc_wraps : gives 0xFFFFF297 [] noBytes 5 0xFFFFF100 0x104 = true := by decide

/-- Section 2.7 row 1. -/
theorem test_jal_links : gives 0x040000EF [] noBytes 1 0x104 0x140 = true := by decide

/-- Section 2.7 row 8. -/
theorem test_jalr_clears_bit0 : gives 0x001300E7 [(6, 0x180)] noBytes 1 0x104 0x180 = true := by decide

/-- Section 2.7 row 10. -/
theorem test_jalr_source_is_destination : gives 0x000080E7 [(1, 0x180)] noBytes 1 0x104 0x180 = true := by decide

/-- Section 2.8 row 1. -/
theorem test_fence : gives 0x0FF0000F [] noBytes 0 0 0x104 = true := by decide

/-- Section 2.8 row 2. -/
theorem test_fenceI : gives 0x0000100F [] noBytes 0 0 0x104 = true := by decide

/-- Section 2.9 row 18. -/
theorem test_ebreak : gives 0x00100073 [] noBytes 0 0 0x104 = true := by decide

/-- Section 2.9 row 19. -/
theorem test_csrrw_leaves_rd : gives 0x300312F3 [(5, 7), (6, 1)] noBytes 5 7 0x104 = true := by decide

/-- Section 2.9 row 20. -/
theorem test_csrrs_leaves_rd : gives 0xC00022F3 [(5, 7)] noBytes 5 7 0x104 = true := by decide

/-- Section 2.9 row 21. -/
theorem test_csrrc_leaves_rd : gives 0x300332F3 [(5, 7), (6, 1)] noBytes 5 7 0x104 = true := by decide

/-- Section 2.9 row 22. -/
theorem test_csrrwi_leaves_rd : gives 0x340FD2F3 [(5, 7)] noBytes 5 7 0x104 = true := by decide

/-- Section 2.9 row 23. -/
theorem test_csrrsi_leaves_rd : gives 0x3400E2F3 [(5, 7)] noBytes 5 7 0x104 = true := by decide

/-- Section 2.9 row 24. -/
theorem test_csrrci_leaves_rd : gives 0x3400F2F3 [(5, 7)] noBytes 5 7 0x104 = true := by decide

/-- Section 2.9 row 3. -/
theorem test_ecall_sbrk_query : gives 0x00000073 [(10, 0), (17, 9)] noBytes 10 0x10000 0x104 = true := by decide

/-- Section 2.9 row 4. -/
theorem test_ecall_sbrk_other : gives 0x00000073 [(10, 0x12000), (17, 9)] noBytes 10 0x12000 0x104 = true := by decide

/-- Section 2.3 row 13. -/
theorem test_load_past_end : faults 0x00032283 [(5, 9), (6, 0x1FD)] loadBytes (.addressOutOfBounds 0x1FD 4) = true := by decide

/-- Section 2.3 row 15. -/
theorem test_load_to_x0_past_end : faults 0x00032003 [(6, 0x200)] loadBytes (.addressOutOfBounds 0x200 4) = true := by decide

/-- Section 2.4 row 7. -/
theorem test_store_past_end : faults 0x00732023 [(6, 0x1FD), (7, 0x89ABCDEF)] noBytes (.addressOutOfBounds 0x1FD 4) = true := by decide

/-- Section 2.4 row 10. -/
theorem test_store_sum_does_not_wrap : faults 0x00730023 [(6, 0xFFFFFFFF), (7, 1)] noBytes (.addressOutOfBounds 0xFFFFFFFF 1) = true := by decide

/-- Section 2.9 row 25. -/
theorem test_illegal_word : faults 0x30200073 [] noBytes (.illegalInstruction 0x73) = true := by decide

/-- Section 2.9 row 17. -/
theorem test_ecall_no_selector : faults 0x00000073 [(17, 0x12345)] noBytes (.unsupportedSyscall 0x12345) = true := by decide

/-- Section 2.9 row 10. -/
theorem test_ecall_write_string_unterminated : faults 0x00000073 [(10, 0x1FE), (17, 4)] (0x1FE, [0x61, 0x62]) (.unterminatedString 0x1FE) = true := by decide

/-- Section 2.9 row 9. -/
theorem test_ecall_write_string_pointer : faults 0x00000073 [(10, 0x200), (17, 4)] noBytes (.addressOutOfBounds 0x200 1) = true := by decide

/-- Section 2.9 row 16. -/
theorem test_ecall_read_string_pointer : faults 0x00000073 [(10, 0x200), (17, 8)] noBytes (.addressOutOfBounds 0x200 1) = true := by decide

/-- Section 2.4 row 2. -/
theorem test_sb : endsIn (step (start 0xFE730FA3 [(6, 0x180), (7, 0x89ABCDEF)] noBytes)) (fun t =>
    t.mem.readBytes 0x17E 3 = [0, 0xEF, 0] && t.pc = 0x104) = true := by decide

/-- Section 2.4 row 4. -/
theorem test_sh_unaligned : endsIn (step (start 0x007310A3 [(6, 0x180), (7, 0x89ABCDEF)] noBytes)) (fun t =>
    t.mem.readBytes 0x180 4 = [0, 0xEF, 0xCD, 0] && t.pc = 0x104) = true := by decide

/-- Section 2.4 row 6. -/
theorem test_sw_last_word : endsIn (step (start 0x00732023 [(6, 0x1FC), (7, 0x89ABCDEF)] noBytes)) (fun t =>
    t.mem.readBytes 0x1FB 5 = [0, 0xEF, 0xCD, 0xAB, 0x89] && t.pc = 0x104) = true := by decide

/-- Section 2.9 row 1: exit does not advance the pc. -/
theorem test_ecall_exit : endsIn (step (start 0x00000073 [(10, 30), (17, 10)] noBytes)) (fun t =>
    t.status = .exited 30 && t.pc = 0x100) = true := by decide

/-- Section 2.9 row 6. -/
theorem test_ecall_write_word : endsIn (step (start 0x00000073 [(10, 0xDEADBEEF), (17, 11)] noBytes)) (fun t =>
    t.trace = [⟨.stderr, .word 0xDEADBEEF⟩] && t.pc = 0x104) = true := by decide

/-- Section 2.9 row 7. -/
theorem test_ecall_write_string :
    endsIn (step (start 0x00000073 [(10, 0x180), (17, 4)] (0x180, [0x48, 0x69, 0x21, 0x00]))) (fun t =>
      t.trace = [⟨.stdout, .bytes [0x48, 0x69, 0x21]⟩] && t.pc = 0x104) = true := by decide

/-- The oracle that answers one call of each kind. -/
def answering (s : State) (word : Answer Word) (line : Answer (List Byte)) : State :=
  { s with oracle := ⟨[word], [line], 0⟩ }

/-- Section 2.9 row 11. -/
theorem test_ecall_read_word :
    endsIn (step (answering (start 0x00000073 [(10, 7), (17, 5)] noBytes) (.ok 42) .fail)) (fun t =>
      t.readReg 10 = 42 && t.pc = 0x104 && t.oracle.words = []) = true := by decide

/-- Section 2.9 row 12. -/
theorem test_ecall_read_word_fails :
    endsIn (step (answering (start 0x00000073 [(10, 7), (17, 5)] noBytes) .fail .fail)) (fun t =>
      t.status = .faulted .inputError && t.readReg 10 = 7 && t.pc = 0x100) = true := by decide

/-- Section 2.9 row 13: no NUL is added. -/
theorem test_ecall_read_string :
    endsIn (step (answering (start 0x00000073 [(10, 0x180), (17, 8)] (0x184, [0x55])) .fail (.ok [0x6F, 0x6B, 0x0A, 0x00])))
      (fun t => t.mem.readBytes 0x180 5 = [0x6F, 0x6B, 0x0A, 0x00, 0x55] && t.readReg 10 = 0x180 && t.pc = 0x104)
      = true := by decide

/-- Section 2.9 row 14. -/
theorem test_ecall_read_string_overrun :
    endsIn (step (answering (start 0x00000073 [(10, 0x1FE), (17, 8)] noBytes) .fail (.ok [0x61, 0x62, 0x63, 0x64])))
      (fun t => t.status = .faulted (.hostBufferOverrun 0x1FE 4) && t.mem.readBytes 0x1FE 2 = [0, 0] && t.pc = 0x100)
      = true := by decide

/-- An opcode-table word runs as the first instruction after reset: `addi x5, x0, 10` (section 2.2 row 1). -/
theorem test_first_instruction_after_reset :
    endsIn (step (State.reset.withFetchWord 32 0x00A00293)) (fun t => t.readReg 5 = 10 && t.pc = 4) = true := by decide

/-- Where the pc lies outside memory, the word is placed at address 0. -/
theorem test_withFetchWord_moves_pc :
    endsIn (step (State.withFetchWord { start 0 [] noBytes with pc := 0xFFFFFFFE } 32 0x00A00293)) (fun t =>
      t.readReg 5 = 10 && t.pc = 4) = true := by decide
/-! ## Witnesses: for each statement with hypotheses, a state and operands that meet them, at the bounds of each clause -/

/-- The common setup with no instruction placed. -/
def base : State := start 0 [] noBytes

/-- A step that ends in a next state with a property ends in some such state. -/
theorem exists_step {s : State} {p : State → Bool} (h : endsIn (step s) p = true) : ∃ t, step s = .next t ∧ p t = true :=
  exists_of_endsIn h

theorem witness_DecodeOfEncode :
    defaultConfig.wf ∧
    (Instr.addi 31 0 0xFFFFF800).wellFormed = true ∧ (Instr.sw 0 31 2047).wellFormed = true ∧
    (Instr.beq 1 2 0xFFFFF000).wellFormed = true ∧ (Instr.bgeu 1 2 4094).wellFormed = true ∧
    (Instr.lui 31 0xFFFFF000).wellFormed = true ∧ (Instr.jal 1 0xFFF00000).wellFormed = true ∧
    (Instr.jal 1 0x000FFFFE).wellFormed = true ∧ Instr.fence.wellFormed = true := by decide

theorem witness_EncodeOfDecode : decodeInstr defaultConfig 0x80000063 = some (.beq 0 0 0xFFFFF000) := by decide

theorem witness_IllegalSpaceIsExact :
    (decode defaultConfig 0xFFFFFFFF).category = .illegal ∧ (decode defaultConfig 0x00004073).category = .illegal ∧
    (decode defaultConfig 0x0FF0000F).category ≠ .illegal := by decide

theorem witness_DecodeNeverReachesInternal :
    (decode defaultConfig 0x00000073).category ≠ .illegal ∧ base.status = .running ∧
    endsIn (execute (decode defaultConfig 0xFFFFFFFF) base) (fun t => t.status ≠ .faulted .internal) = true := by decide

/-- Bits 11 down to 7 of this word are its rd field (R13, R301). -/
theorem test_bitExtract_field : bitExtract 32 0xFEDCBA98 11 7 = 0x15 := by decide

theorem witness_BitMaskBits : (8 ≤ 8 ∨ 8 ≤ 0) ∧ (7 ≤ 7 ∧ 7 < 8) ∧ bitMask 8 7 7 = 0x80 := by decide

theorem witness_BoundsCheckOfEveryAccess :
    ([1, 2, 4].all (fun n => decide (base.mem.size < (0x201 - BitVec.ofNat 32 n).toNat + n))) = true ∧
    ([1, 2, 4].all (fun n => decide ((0x200 - BitVec.ofNat 32 n).toNat + n ≤ base.mem.size))) = true := by decide

theorem witness_ReadIsLittleEndianSum :
    ([1, 2, 4].all (fun n => decide (base.mem.size < (0x201 - BitVec.ofNat 32 n).toNat + n))) = true ∧
    ([1, 2, 4].all (fun n => decide ((0x200 - BitVec.ofNat 32 n).toNat + n ≤ base.mem.size))) = true ∧
    (start 0 [] loadBytes).memRead 0x180 4 = .ok 0x01FF7F80 := by decide

theorem witness_WritePutsLittleEndianBytes :
    ([1, 2, 4].all (fun n => decide (base.mem.size < (0x201 - BitVec.ofNat 32 n).toNat + n))) = true ∧
    ([1, 2, 4].all (fun n => decide ((0x200 - BitVec.ofNat 32 n).toNat + n ≤ base.mem.size))) = true := by decide

/-- A write into the last four bytes of memory passes the check. -/
theorem memWrite_last_word (v : Word) : ∃ t, base.memWrite 0x1FC 4 v = .ok t := ⟨_, rfl⟩

theorem witness_LoadAfterStoreAndMixedWidths :
    (∃ t, base.memWrite 0x1FC 4 0x89ABCDEF = .ok t) ∧ (0x1FC : Word).toNat + 4 ≤ 2 ^ 32 :=
  ⟨memWrite_last_word _, by decide⟩

theorem witness_StringEndsAtFirstNul :
    (start 0 [] loadBytes).mem.stringAt 0x184 4 = some [0x34, 0x12] ∧
    (start 0 [] loadBytes).mem.stringAt 0x186 1 = some [] ∧
    (start 0 [] loadBytes).mem.stringAt 0x180 6 = none := by decide

theorem witness_ImageIsMemoryVerbatim :
    [0x00, 0x12, 0x00].length ≤ 2 ^ 32 ∧ 2 < [(0x00 : Byte), 0x12, 0x00].length ∧
    (Memory.ofImage [0x00, 0x12, 0x00]).cells = [(1, 0x12)] := by decide

theorem witness_RegisterZeroReadsZero :
    ∃ t, step (start 0x12345037 [] noBytes) = .next t ∧ decide (t.status = .running) = true :=
  exists_step (by decide)

theorem witness_HostPortAccessors :
    hostGetReg 31 (start 0 [(31, 7)] noBytes) = some 7 ∧ hostGetReg 32 base = none := by decide

theorem witness_ConstructionState :
    (1 : RegIdx) ≠ 0 ∧ (1 : RegIdx) ≠ 2 ∧ (31 : RegIdx) ≠ 0 ∧ (31 : RegIdx) ≠ 2 ∧
    2 < [(0x00 : Byte), 0x12, 0x00].length := by decide

theorem witness_StepRunsTheDecodedInstruction :
    (start 0x0020006F [] noBytes).status = .running ∧ (start 0x0020006F [] noBytes).memRead 0x100 4 = .ok 0x0020006F ∧
    decodeInstr defaultConfig 0x0020006F = some (.jal 0 2) ∧
    ∃ t, exec (.jal 0 2) (start 0x0020006F [] noBytes) = .next t ∧ decide (t.status = .running) = true :=
  ⟨by decide, by decide, by decide, exists_of_endsIn (by decide)⟩

theorem witness_StepRunsTheDecodedInstruction_exit :
    (start 0x00000073 [(17, 10)] noBytes).memRead 0x100 4 = .ok 0x00000073 ∧
    ∃ t, exec .ecall (start 0x00000073 [(17, 10)] noBytes) = .next t ∧ decide (t.status = .running) = false :=
  ⟨by decide, _, rfl, by decide⟩

theorem witness_FetchOutOfBoundsFaults :
    base.status = .running ∧ base.mem.size < ({ base with pc := 0x1FD } : State).pc.toNat + 4 := by decide

theorem witness_IllegalWordFaults :
    (decode defaultConfig 0x00000000).category = .illegal ∧
    (start 0x30200073 [] noBytes).status = .running ∧ (start 0x30200073 [] noBytes).memRead 0x100 4 = .ok 0x30200073 ∧
    (decode defaultConfig 0x30200073).category = .illegal := by decide

theorem witness_EndedRunTakesNoStep :
    ({ base with status := .exited 0 } : State).status ≠ .running ∧
    ({ base with status := .faulted .inputError } : State).status ≠ .running := by decide

theorem witness_FailedStepChangesOnlyStatus :
    ∃ t, step (start 0x30200073 [] noBytes) = .next t ∧
      decide (t.status = .faulted (.illegalInstruction 0x73)) = true := exists_step (by decide)

theorem witness_ExitOnlyByExitCall :
    ∃ t, step (start 0x00000073 [(10, 30), (17, 10)] noBytes) = .next t ∧ decide (t.status = .exited 30) = true :=
  exists_step (by decide)

theorem witness_StepKeepsInvariant :
    (start 0x00732023 [(6, 0x1FC), (7, 0x89ABCDEF)] noBytes).Inv ∧
    ∃ t, step (start 0x00732023 [(6, 0x1FC), (7, 0x89ABCDEF)] noBytes) = .next t ∧
      decide (t.status = .running) = true := ⟨by decide, exists_step (by decide)⟩

/-- One step of the common setup reaches a state with a longer trace. -/
theorem witness_RunsKeepInvariantAndGrowTrace :
    (start 0x00000073 [(17, 1)] noBytes).Inv ∧
    ∃ t, Reaches (start 0x00000073 [(17, 1)] noBytes) t ∧ decide (t.trace.length = 1) = true := by
  refine ⟨by decide, ?_⟩
  obtain ⟨t, ht, hp⟩ := exists_step (s := start 0x00000073 [(17, 1)] noBytes)
    (p := fun t => decide (t.trace.length = 1)) (by decide)
  exact ⟨t, .step ht (.refl t), hp⟩

theorem witness_ReachedFaultsArePrecise :
    (start 0x00000073 [] noBytes).status = .running ∧
    ∃ t, Reaches (start 0x00000073 [] noBytes) t ∧ decide (t.status = .faulted (.unsupportedSyscall 0)) = true := by
  refine ⟨by decide, ?_⟩
  obtain ⟨t, ht, hp⟩ := exists_step (s := start 0x00000073 [] noBytes)
    (p := fun t => decide (t.status = .faulted (.unsupportedSyscall 0))) (by decide)
  exact ⟨t, .step ht (.refl t), hp⟩

theorem witness_StepKeepsPcEven :
    base.pc.toNat % 2 = 0 ∧ ∃ t, step (start 0xFFF00067 [] noBytes) = .next t ∧ decide (t.pc = 0xFFFFFFFE) = true :=
  ⟨by decide, exists_step (by decide)⟩

theorem witness_FetchSeesEarlierStore : ∃ t, base.memWrite base.pc 4 0x00100073 = .ok t := ⟨_, rfl⟩

theorem witness_PlacedWordIsFetched :
    0xFFFFFFFF < 2 ^ 32 ∧ ({ base with pc := 0x1FC } : State).pc.toNat + 4 ≤ base.mem.size := by decide

theorem witness_EveryInstructionAnswersNext : base.status = .running := by decide

theorem witness_OnlyTheDestinationIsWritten :
    (∃ t, exec (.add 5 6 7) base = .next t) ∧ destination (.add 5 6 7) ≠ some 6 ∧
    (∃ t, exec .ecall (start 0 [(17, 10)] noBytes) = .next t) ∧
    syscallOf defaultConfig ((start 0 [(17, 10)] noBytes).readReg 17) = some .exit :=
  ⟨⟨_, rfl⟩, by decide, ⟨_, rfl⟩, by decide⟩

theorem witness_OnlyStoresAndReadStringWriteMemory :
    (∃ t, exec .ecall (start 0 [(17, 10)] noBytes) = .next t) ∧ isStore .ecall = false ∧
    syscallOf defaultConfig ((start 0 [(17, 10)] noBytes).readReg 17) ≠ some .readString :=
  ⟨⟨_, rfl⟩, by decide, by decide⟩

theorem witness_OnlyEcallReachesTheHost :
    (∃ t, exec (.lw 5 0 2047) base = .next t) ∧ Instr.lw 5 0 2047 ≠ .ecall := ⟨⟨_, rfl⟩, by decide⟩

theorem witness_ImmediateArithmeticResults :
    [0xFFFFF800, 0xFFFFFFFF, 0, 2047].all (fun imm =>
      (Instr.addi 31 1 imm).wellFormed && (Instr.slti 31 1 imm).wellFormed && (Instr.sltiu 31 1 imm).wellFormed)
      = true := by decide

theorem witness_ImmediateLogicResults :
    [0xFFFFF800, 0xFFFFFFFF, 0, 2047].all (fun imm =>
      (Instr.xori 31 1 imm).wellFormed && (Instr.ori 31 1 imm).wellFormed && (Instr.andi 31 1 imm).wellFormed)
      = true := by decide

theorem witness_UpperImmediateResults :
    [0, 0x80000000, 0xFFFFF000].all (fun imm =>
      (Instr.lui 31 imm).wellFormed && (Instr.auipc 31 imm).wellFormed) = true := by decide

theorem witness_JalResult :
    [0xFFF00000, 0xFFFFFFFE, 0, 0x000FFFFE].all (fun imm => (Instr.jal 1 imm).wellFormed) = true := by decide

theorem witness_JalrResult :
    [0xFFFFF800, 0xFFFFFFFF, 0, 2047].all (fun imm => (Instr.jalr 1 31 imm).wellFormed) = true := by decide

theorem witness_FencesOnlyAdvance : defaultConfig.wf := by decide

/-- Immediates at the bounds of the formats of loads, stores and branches. -/
theorem witness_immediates_of_loads_stores_branches :
    [0xFFFFF800, 2047].all (fun imm =>
      (Instr.lb 1 2 imm).wellFormed && (Instr.lh 1 2 imm).wellFormed && (Instr.lw 1 2 imm).wellFormed &&
      (Instr.lbu 1 2 imm).wellFormed && (Instr.lhu 1 2 imm).wellFormed && (Instr.sb 1 2 imm).wellFormed &&
      (Instr.sh 1 2 imm).wellFormed && (Instr.sw 1 2 imm).wellFormed) = true ∧
    [0xFFFFF000, 4094].all (fun imm =>
      (Instr.beq 1 2 imm).wellFormed && (Instr.bne 1 2 imm).wellFormed && (Instr.blt 1 2 imm).wellFormed &&
      (Instr.bge 1 2 imm).wellFormed && (Instr.bltu 1 2 imm).wellFormed && (Instr.bgeu 1 2 imm).wellFormed)
      = true := by decide

/-- Each load at the last address it may read and at the first it may not. -/
theorem witness_SignedLoadResults :
    [1, 2, 4].all (fun n =>
      let s := start 0 [(6, 0x200)] noBytes
      decide ((s.readReg 6 + -BitVec.ofNat 32 n).toNat + n ≤ s.mem.size) &&
      decide (s.mem.size < (s.readReg 6 + (1 - BitVec.ofNat 32 n)).toNat + n)) = true := by decide

theorem witness_UnsignedLoadResults :
    [1, 2].all (fun n =>
      let s := start 0 [(6, 0x200)] noBytes
      decide ((s.readReg 6 + -BitVec.ofNat 32 n).toNat + n ≤ s.mem.size) &&
      decide (s.mem.size < (s.readReg 6 + (1 - BitVec.ofNat 32 n)).toNat + n)) = true := by decide

/-- Each store at the last address it may write and at the first it may not. -/
theorem witness_StoreResults :
    [1, 2, 4].all (fun n =>
      let s := start 0 [(6, 0x200), (7, 0x89ABCDEF)] noBytes
      decide ((s.readReg 6 + -BitVec.ofNat 32 n).toNat + n ≤ s.mem.size) &&
      decide (s.mem.size < (s.readReg 6 + (1 - BitVec.ofNat 32 n)).toNat + n)) = true := by decide

theorem witness_EqualityBranchResults :
    (start 0 [(6, 5), (7, 5)] noBytes).readReg 6 = (start 0 [(6, 5), (7, 5)] noBytes).readReg 7 ∧
    (start 0 [(6, 5), (7, 4)] noBytes).readReg 6 ≠ (start 0 [(6, 5), (7, 4)] noBytes).readReg 7 := by decide

/-- Less and not less, signed and unsigned, with equality on the not-less side. -/
theorem witness_OrderBranchResults :
    let s := start 0 [(6, 0xFFFFFFFF), (7, 1), (8, 1)] noBytes
    (s.readReg 6).toInt < (s.readReg 7).toInt ∧ ¬ (s.readReg 7).toInt < (s.readReg 8).toInt ∧
    (s.readReg 7).toNat < (s.readReg 6).toNat ∧ ¬ (s.readReg 7).toNat < (s.readReg 8).toNat := by decide

theorem witness_EcallSbrk :
    (start 0 [(17, 9)] noBytes).readReg 17 = (start 0 [(17, 9)] noBytes).cfg.sysSbrk := by decide

theorem witness_EcallReadWord :
    defaultConfig.wf ∧ (start 0 [(17, 5)] noBytes).readReg 17 = defaultConfig.sysReadWord ∧
    (answering (start 0 [(17, 5)] noBytes) (.ok 42) .fail).oracle.askWord.1 = .ok 42 ∧
    (answering (start 0 [(17, 5)] noBytes) .fail .fail).oracle.askWord.1 = .fail := by decide

/-- A line that ends with the last byte of memory, and one of the largest length. -/
theorem witness_EcallReadStringWrites :
    defaultConfig.wf ∧ (start 0 [(10, 0x1FE), (17, 8)] noBytes).readReg 17 = defaultConfig.sysReadString ∧
    ((start 0 [(10, 0x1FE), (17, 8)] noBytes).readReg 10).toNat < base.mem.size ∧
    ((answering base .fail (.ok [0x61, 0x62])).oracle.askLine 16).1 = .ok [0x61, 0x62] ∧
    ((start 0 [(10, 0x1FE), (17, 8)] noBytes).readReg 10).toNat + [0x61, 0x62].length ≤ base.mem.size ∧
    ((answering base .fail (.ok (List.replicate 17 0x61))).oracle.askLine 16).1 = .ok (List.replicate 16 0x61) := by decide

/-- Each error: the first bad pointer; a failed stream; a line one byte too long. -/
theorem witness_EcallReadStringErrors :
    defaultConfig.wf ∧ (start 0 [(10, 0x200), (17, 8)] noBytes).readReg 17 = defaultConfig.sysReadString ∧
    base.mem.size ≤ ((start 0 [(10, 0x200), (17, 8)] noBytes).readReg 10).toNat ∧
    ((start 0 [(10, 0x1FF), (17, 8)] noBytes).readReg 10).toNat < base.mem.size ∧
    ((answering base .fail .fail).oracle.askLine 16).1 = .fail ∧
    ((answering base .fail (.ok [0x61, 0x62])).oracle.askLine 16).1 = .ok [0x61, 0x62] ∧
    base.mem.size < ((start 0 [(10, 0x1FF), (17, 8)] noBytes).readReg 10).toNat + [0x61, 0x62].length := by decide

theorem witness_EcallWriteWord :
    defaultConfig.wf ∧ (start 0 [(17, 1)] noBytes).readReg 17 = defaultConfig.sysWriteWord ∧
    (start 0 [(17, 11)] noBytes).readReg 17 = defaultConfig.sysWriteWordErr := by decide

/-- A string that ends with the last byte of memory; the first bad pointer; no NUL in the last two bytes. -/
theorem witness_EcallWriteString :
    defaultConfig.wf ∧ (start 0 [(17, 4)] noBytes).readReg 17 = defaultConfig.sysWriteString ∧
    (start 0 [(17, 12)] noBytes).readReg 17 = defaultConfig.sysWriteStringErr ∧
    (let s := start 0 [(10, 0x1FE), (17, 4)] (0x1FE, [0x61, 0x00])
     (s.readReg 10).toNat + 1 < s.mem.size ∧ s.mem.readByte ((s.readReg 10).toNat + 1) = 0 ∧
     s.mem.readByte ((s.readReg 10).toNat + 0) ≠ 0) ∧
    (let s := start 0 [(10, 0x200), (17, 4)] noBytes
     s.mem.size ≤ (s.readReg 10).toNat) ∧
    (let s := start 0 [(10, 0x1FE), (17, 4)] (0x1FE, [0x61, 0x62])
     (s.readReg 10).toNat < s.mem.size ∧ s.mem.readByte 0x1FE ≠ 0 ∧ s.mem.readByte 0x1FF ≠ 0) := by decide

theorem witness_EcallExit :
    defaultConfig.wf ∧ (start 0 [(17, 10)] noBytes).readReg 17 = defaultConfig.sysExit := by decide

theorem witness_EcallUnrecognizedSelector :
    (start 0 [(17, 0x12345)] noBytes).readReg 17 ∉ (start 0 [(17, 0x12345)] noBytes).cfg.selectors := by decide

end Sys2Proof.Tests
end

section
/-! Proofs of the scope family: the bit-mask utility (R20), and what every run keeps (R10, R122, R877). -/

namespace Sys2Proof

/-! ## The bit-mask utility -/

/-- A bound that is not below the width clamps the mask to 0. -/
theorem bitMask_of_bound_too_large {width left right : Nat} (h : width ≤ left ∨ width ≤ right) :
    bitMask width left right = 0 := by
  rw [bitMask, if_pos h]

/-- Bounds in order and below the width give a run of ones, `left - right + 1` long, moved up to bit `right`. -/
theorem bitMask_of_bounds {width left right : Nat} (order : right ≤ left) (bound : left < width) :
    bitMask width left right = BitVec.ofNat width (2 ^ (left - right + 1) - 1) <<< right := by
  rw [bitMask, if_neg (by omega), if_neg (by omega)]

theorem getLsbD_bitMask {width left right : Nat} (order : right ≤ left) (bound : left < width) (k : Nat) :
    (bitMask width left right).getLsbD k = decide (right ≤ k ∧ k ≤ left) := by
  rw [bitMask_of_bounds order bound, BitVec.getLsbD_shiftLeft, BitVec.getLsbD_ofNat, Nat.testBit_two_pow_sub_one,
    Bool.eq_iff_iff]
  simp only [Bool.and_eq_true, Bool.not_eq_true', decide_eq_true_eq, decide_eq_false_iff_not]
  omega

/-- Settles O8: the clamp and the run of ones are the two branches of the mask that the spec names. -/
theorem bitMaskBits : Obligations.BitMaskBits := fun _ _ _ =>
  ⟨bitMask_of_bound_too_large, getLsbD_bitMask⟩

end Sys2Proof

namespace Sys2Proof.Machine

/-! ## What every update of the state keeps

`Continues s t` gathers what no operation of the CORE may break. It is a preorder, so a composed operation continues its
start state because each of its parts does. -/

/-- The second state may come after the first in a run: a stored register 0 of 0 and a canonical memory are kept, the
parameters and `MEM_SIZE` are the same, and the trace extends the first. -/
structure Continues (s t : State) : Prop where
  stored_zero : s.regs[0] = 0 → t.regs[0] = 0
  mem_wf : s.mem.wf → t.mem.wf
  cfg : t.cfg = s.cfg
  size : t.mem.size = s.mem.size
  trace : s.trace <+: t.trace

namespace Continues

theorem refl (s : State) : Continues s s := ⟨id, id, rfl, rfl, List.prefix_rfl⟩

theorem trans {s t u : State} (st : Continues s t) (tu : Continues t u) : Continues s u where
  stored_zero := tu.stored_zero ∘ st.stored_zero
  mem_wf := tu.mem_wf ∘ st.mem_wf
  cfg := tu.cfg.trans st.cfg
  size := tu.size.trans st.size
  trace := st.trace.trans tu.trace

theorem inv {s t : State} (st : Continues s t) (h : s.Inv) : t.Inv := by
  obtain ⟨zero, mem, cfg⟩ := h
  exact ⟨st.stored_zero zero, st.mem_wf mem, st.cfg ▸ cfg⟩

/-- An update that touches only the pc, the status and the oracle. -/
theorem of_same {s t : State} (regs : t.regs = s.regs) (mem : t.mem = s.mem) (cfg : t.cfg = s.cfg)
    (trace : t.trace = s.trace) : Continues s t where
  stored_zero h := by rw [regs, h]
  mem_wf h := by rwa [mem]
  cfg := cfg
  size := by rw [mem]
  trace := by rw [trace]

theorem faultedFrom (s : State) (e : ErrorKind) : Continues s (FaultedFrom s e) := of_same rfl rfl rfl rfl

theorem withStatus (s : State) (x : RunStatus) : Continues s { s with status := x } := of_same rfl rfl rfl rfl

theorem withOracle (s : State) (o : Oracle) : Continues s { s with oracle := o } := of_same rfl rfl rfl rfl

theorem jumpTo (s : State) (a : Word) : Continues s (s.jumpTo a) := of_same rfl rfl rfl rfl

theorem advance (s : State) : Continues s s.advance := of_same rfl rfl rfl rfl

theorem writeReg (s : State) (rd : RegIdx) (v : Word) : Continues s (s.writeReg rd v) where
  stored_zero h := by rw [writeReg_stored_zero, h]
  mem_wf h := by rwa [writeReg_mem]
  cfg := writeReg_cfg s rd v
  size := by rw [writeReg_mem]
  trace := by rw [writeReg_trace]

theorem restoreX0 (s : State) : Continues s s.restoreX0 where
  stored_zero _ := restoreX0_stored s
  mem_wf := id
  cfg := rfl
  size := rfl
  trace := List.prefix_rfl

theorem emit (s : State) (stream : Stream) (item : Item) : Continues s (s.emit stream item) where
  stored_zero := id
  mem_wf := id
  cfg := rfl
  size := rfl
  trace := List.prefix_append _ _

theorem writeBytes (s : State) (a : Nat) (bs : List Byte) (bound : a + bs.length ≤ s.mem.size) :
    Continues s { s with mem := s.mem.writeBytes a bs } where
  stored_zero := id
  mem_wf h := writeBytes_wf s.mem a bs h bound
  cfg := rfl
  size := writeBytes_size s.mem a bs
  trace := List.prefix_rfl

end Continues

/-! ## One instruction, one step, one run -/

/-- Every state an outcome holds comes after the given one. -/
def ContinuesWith (s : State) (r : Result) : Prop := ∀ t, r = .next t → Continues s t

theorem continuesWith_next {s t : State} (h : Continues s t) : ContinuesWith s (.next t) := by
  rintro _ ⟨rfl⟩; exact h

theorem continuesWith_complete {s t : State} (h : Continues s t) : ContinuesWith s (complete t) :=
  continuesWith_next (h.trans (.advance t))

theorem continuesWith_writeResult {s t : State} (rd : RegIdx) (v : Word) (h : Continues s t) :
    ContinuesWith s (writeResult rd v t) :=
  continuesWith_complete (h.trans (.writeReg t rd v))

theorem exec_continues (i : Instr) (s : State) : ContinuesWith s (exec i s) := by
  rcases exec_cases i s with
    ⟨e, h⟩ | ⟨-, rd, v, a, -, h⟩ | ⟨a, h⟩ | ⟨-, a, bs, bound, h⟩ |
      ⟨-, ⟨-, h⟩ | ⟨-, v, o, h⟩ | ⟨-, bs, o, bound, h⟩ | ⟨stream, item, h⟩ | ⟨-, h⟩⟩ <;> rw [h]
  · exact continuesWith_next (.faultedFrom s e)
  · exact continuesWith_next (.trans (.writeReg s rd v) (.jumpTo _ a))
  · exact continuesWith_next (.jumpTo s a)
  · exact continuesWith_complete (.writeBytes s a bs bound)
  · exact continuesWith_writeResult _ _ (.refl s)
  · exact continuesWith_writeResult _ _ (.withOracle s o)
  · exact continuesWith_complete (.trans (.writeBytes s _ bs bound) (.withOracle _ o))
  · exact continuesWith_complete (.emit s stream item)
  · exact continuesWith_next (.withStatus s _)

theorem execute_continues (r : Record) (s : State) : ContinuesWith s (execute r s) := by
  unfold execute
  split
  · exact continuesWith_next (.withStatus s _)
  · split
    · exact exec_continues _ s
    · exact continuesWith_next (.withStatus s _)

theorem afterDispatch_continues {s : State} {r : Result} (h : ContinuesWith s r) :
    ContinuesWith s (afterDispatch r) := by
  cases r with
  | next t =>
    have st : Continues s t := h t rfl
    simp only [afterDispatch]
    split
    · exact continuesWith_next (st.trans (.restoreX0 t))
    · exact continuesWith_next st
  | fault f => exact h
  | refused f => exact h

theorem step_continues (s : State) : ContinuesWith s (step s) := by
  by_cases running : s.status = .running
  · rcases step_cases s running with ⟨e, -, h⟩ | ⟨w, -, h⟩ <;> rw [h]
    · exact continuesWith_next (.faultedFrom s e)
    · exact afterDispatch_continues (execute_continues _ s)
  · rw [step_ended s running]
    rintro t ⟨⟩

theorem reaches_continues {s t : State} (h : Reaches s t) : Continues s t := by
  induction h with
  | refl s => exact .refl s
  | step first _ ih => exact (step_continues _ _ first).trans ih

/-- Settles O26: every step continues the state it starts from (`step_continues`), so a run does, by induction on it. -/
theorem runsKeepInvariantAndGrowTrace : Obligations.RunsKeepInvariantAndGrowTrace := by
  intro s t inv run
  have st : Continues s t := reaches_continues run
  obtain ⟨more, grown⟩ := st.trace
  exact ⟨st.inv inv, st.cfg, st.size, more, grown.symm⟩

end Sys2Proof.Machine
end

section
/-! Proofs of the state family: the image as memory (R137, R1101), the registers and the host's accessors (R101 to R106,
R131 to R134), the pc (R114), and the end of a run (R121). -/

namespace Sys2Proof

/-! ## The immediates of a decoded instruction -/

/-- A record whose immediate is read in the format of its category and mnemonic gives a well-formed instruction (R322,
R326). -/
theorem Record.toInstr_wellFormed {r : Record} {w : Word} {i : Instr}
    (imm : r.imm = immOf (formatOf r.category r.mnemonic) w) (h : r.toInstr = some i) : i.wellFormed = true := by
  cases k : r.category <;> rw [k] at imm <;> simp only [Record.toInstr, k] at h
  case registerRegister => unfold Record.registerRegisterInstr at h; split at h <;> cases h <;> rfl
  case immediate =>
    have fits : fitsI r.imm = true := imm ▸ fitsI_immI w
    unfold Record.immediateInstr at h; split at h <;> cases h <;> simp [Instr.wellFormed, fits]
  case load =>
    have fits : fitsI r.imm = true := imm ▸ fitsI_immI w
    unfold Record.loadInstr at h; split at h <;> cases h <;> exact fits
  case store =>
    have fits : fitsI r.imm = true := imm ▸ fitsI_immS w
    unfold Record.storeInstr at h; split at h <;> cases h <;> exact fits
  case branch =>
    have fits : fitsB r.imm = true := imm ▸ fitsB_immB w
    unfold Record.branchInstr at h; split at h <;> cases h <;> exact fits
  case upperImmediate =>
    have fits : fitsU r.imm = true := imm ▸ fitsU_immU w
    unfold Record.upperImmediateInstr at h; split at h <;> cases h <;> exact fits
  case jump =>
    unfold Record.jumpInstr at h; split at h <;> rename_i m <;> cases h <;> rw [m] at imm
    · exact (imm ▸ fitsJ_immJ w : fitsJ r.imm = true)
    · exact (imm ▸ fitsI_immI w : fitsI r.imm = true)
  case fence => unfold Record.fenceInstr at h; split at h <;> cases h <;> rfl
  case system => unfold Record.systemInstr at h; split at h <;> cases h <;> rfl
  case illegal => cases h

/-- Every word that decodes gives a well-formed instruction. -/
theorem decodeInstr_wellFormed {c : Config} {w : Word} {i : Instr} (h : decodeInstr c w = some i) :
    i.wellFormed = true :=
  Record.toInstr_wellFormed rfl h

end Sys2Proof

namespace Sys2Proof.Machine

/-! ## The memory built from an image -/

theorem cellsRead_of_unlisted {cells : List Host.Cell} {x : Nat} (h : ∀ c ∈ cells, c.1 ≠ x) :
    cellsRead cells x = unlistedByte := by
  induction cells with
  | nil => rfl
  | cons c rest ih =>
    rw [cellsRead, if_neg (h c (by simp)), ih (fun d hd => h d (by simp [hd]))]

/-- The cells of an image lie within its addresses, and none holds what an unlisted address reads as. -/
theorem mem_cellsOfImage {a : Nat} {image : List Byte} {c : Host.Cell} (h : c ∈ cellsOfImage a image) :
    c.2 ≠ unlistedByte ∧ a ≤ c.1 ∧ c.1 < a + image.length := by
  induction image generalizing a with
  | nil => cases h
  | cons b bs ih =>
    have tail : c ∈ cellsOfImage (a + 1) bs → c.2 ≠ unlistedByte ∧ a ≤ c.1 ∧ c.1 < a + (b :: bs).length := by
      intro hc
      obtain ⟨listed, low, high⟩ := ih hc
      exact ⟨listed, by omega, by rw [List.length_cons]; omega⟩
    unfold cellsOfImage at h
    split at h
    · exact tail h
    · rename_i hb
      rcases List.mem_cons.mp h with rfl | hc
      · exact ⟨hb, le_refl a, by simp⟩
      · exact tail hc

theorem cellsOfImage_sorted (a : Nat) (image : List Byte) :
    (cellsOfImage a image).Pairwise (fun c d => c.1 < d.1) := by
  induction image generalizing a with
  | nil => exact .nil
  | cons b bs ih =>
    unfold cellsOfImage
    split
    · exact ih (a + 1)
    · exact .cons (fun _ hc => (mem_cellsOfImage hc).2.1) (ih (a + 1))

/-- The cells of an image from an address up read as the image. -/
theorem cellsRead_cellsOfImage (a : Nat) (image : List Byte) (k : Nat) :
    cellsRead (cellsOfImage a image) (a + k) = image.getD k unlistedByte := by
  induction image generalizing a k with
  | nil => rfl
  | cons b bs ih =>
    have later : ∀ c ∈ cellsOfImage (a + 1) bs, c.1 ≠ a := fun c hc => by
      obtain ⟨-, low, -⟩ := mem_cellsOfImage hc
      omega
    unfold cellsOfImage
    cases k with
    | zero =>
      split
      · rename_i hb; simp [cellsRead_of_unlisted later, hb]
      · simp [cellsRead]
    | succ k =>
      rw [show a + (k + 1) = a + 1 + k by omega]
      split
      · rw [ih, List.getD_cons_succ]
      · rw [cellsRead, if_neg (by omega), ih, List.getD_cons_succ]

theorem readByte_ofImage (image : List Byte) (k : Nat) :
    (Memory.ofImage image).readByte k = image.getD k unlistedByte := by
  rw [← cellsRead_cellsOfImage 0 image k, Nat.zero_add]; rfl

theorem ofImage_wf {image : List Byte} (h : image.length ≤ 2 ^ 32) : (Memory.ofImage image).wf := by
  refine ⟨cellsOfImage_sorted 0 image, fun c hc => ?_, h⟩
  obtain ⟨listed, -, high⟩ := mem_cellsOfImage hc
  exact ⟨listed, lt_of_lt_of_eq high (Nat.zero_add image.length)⟩

/-- Settles O14: the cells of an image read as the image (`readByte_ofImage`) and are canonical (`ofImage_wf`). -/
theorem imageIsMemoryVerbatim : Obligations.ImageIsMemoryVerbatim := fun image =>
  ⟨rfl, fun k hk => by simp [readByte_ofImage, hk], ofImage_wf⟩

/-! ## The invariant -/

/-- Settles O25: a step continues its start state (`step_continues`), and what continues keeps the invariant. -/
theorem stepKeepsInvariant : Obligations.StepKeepsInvariant := fun s t inv next =>
  (step_continues s t next).inv inv

/-- Settles O18: the reset state lists no byte of memory, so its canonical form is immediate; the selectors of
`defaultConfig` are compared pair by pair. -/
theorem resetMeetsInvariant : Obligations.ResetMeetsInvariant := ⟨by decide, rfl⟩

/-! ## The end of a run -/

theorem runFor_ended {s : State} (h : s.status ≠ .running) (n : Nat) : runFor n s = s := by
  cases n with
  | zero => rfl
  | succ n => rw [runFor, step_ended s h]

/-- Settles O22: a step of an ended run is the fault `runEnded` (`step_ended`), at which a run stops. -/
theorem endedRunTakesNoStep : Obligations.EndedRunTakesNoStep := fun s h => ⟨step_ended s h, runFor_ended h⟩

/-! ## The register an instruction writes -/

/-- Everything one instruction can do to the registers: nothing, or a write of its destination, which ECALL does for sbrk
and read word alone (R105, R106). -/
theorem exec_regs_cases {i : Instr} {s t : State} (h : exec i s = .next t) :
    SameRegs s t ∨
    ∃ rd v, destination i = some rd ∧ RegsAfterWrite rd v s t ∧
      (i = .ecall → syscallOf s.cfg (s.readReg regA7) = some .sbrk ∨
        syscallOf s.cfg (s.readReg regA7) = some .readWord) := by
  rcases exec_cases i s with
    ⟨e, h'⟩ | ⟨notEcall, rd, v, a, dest, h'⟩ | ⟨a, h'⟩ | ⟨-, a, bs, -, h'⟩ |
      ⟨rfl, ⟨call, h'⟩ | ⟨call, v, o, h'⟩ | ⟨-, bs, o, -, h'⟩ | ⟨stream, item, h'⟩ | ⟨-, h'⟩⟩ <;>
    cases h'.symm.trans h
  · exact .inl fun _ => rfl
  · exact .inr ⟨rd, v, dest, writeReg_regsAfterWrite s rd v, fun isEcall => absurd isEcall notEcall⟩
  · exact .inl fun _ => rfl
  · exact .inl fun _ => rfl
  · exact .inr ⟨regA0, _, rfl, writeReg_regsAfterWrite s regA0 _, fun _ => .inl call⟩
  · exact .inr ⟨regA0, v, rfl, writeReg_regsAfterWrite { s with oracle := o } regA0 v, fun _ => .inr call⟩
  · exact .inl fun _ => rfl
  · exact .inl fun _ => rfl
  · exact .inl fun _ => rfl

/-- Settles O32: an instruction changes no register or writes its destination (`exec_regs_cases`). -/
theorem onlyTheDestinationIsWritten : Obligations.OnlyTheDestinationIsWritten := by
  intro i s t h
  rcases exec_regs_cases h with same | ⟨rd, v, dest, ⟨-, -, others⟩, call⟩
  · exact ⟨fun r _ => same r, fun _ _ _ => same⟩
  · refine ⟨fun r other => others r fun e => other (by rw [dest, e]), fun isEcall notSbrk notReadWord => ?_⟩
    exact ((call isEcall).elim notSbrk notReadWord).elim

/-! ## Register 0 -/

theorem afterDispatch_stored_zero {r : Result} {t : State} (h : afterDispatch r = .next t)
    (running : t.status = .running) : t.regs[0] = 0 := by
  unfold afterDispatch at h
  split at h
  · split at h
    · cases h; exact restoreX0_stored _
    · rename_i ended; cases h; exact absurd running ended
  · cases h
  · cases h

/-- A step that leaves the CORE running leaves 0 stored in register 0, whatever was stored before (R422). -/
theorem step_stored_zero {s t : State} (h : step s = .next t) (running : t.status = .running) : t.regs[0] = 0 := by
  by_cases hs : s.status = .running
  · rcases step_cases s hs with ⟨e, -, h'⟩ | ⟨w, -, h'⟩
    · cases h'.symm.trans h; cases running
    · exact afterDispatch_stored_zero (h'.symm.trans h) running
  · cases (step_ended s hs).symm.trans h

theorem hostGetRegs_getElem (s : State) (i : RegIdx) : (hostGetRegs s)[i] = s.readReg i := by
  simp [hostGetRegs]

/-- After `set_regs`, register 0 reads 0 and every other register its entry of the array (R134). -/
theorem readReg_hostSetRegs (a : Vector Word 32) (s : State) (i : RegIdx) :
    (hostSetRegs a s).readReg i = if i = 0 then 0 else a[i] := by
  by_cases h : i = 0
  · simp [h]
  · have h' : ¬ 0 = i.val := fun e => h (Fin.ext e.symm)
    simp [State.readReg, hostSetRegs, h, h']

/-- Settles O15: the accessors read 0 and discard a write by definition, and the force after a dispatch is
`step_stored_zero`. -/
theorem registerZeroReadsZero : Obligations.RegisterZeroReadsZero := fun s v _ =>
  ⟨readReg_zero s, rfl, hostGetRegs_getElem s 0, writeReg_zero s v, rfl, readReg_zero _,
    fun _ => step_stored_zero⟩

/-! ## The host's accessors -/

theorem writeReg_sameMemory (s : State) (r : RegIdx) (v : Word) : SameMemory s (s.writeReg r v) :=
  ⟨by rw [writeReg_mem], fun _ => by rw [writeReg_mem]⟩

theorem writeReg_sameRest (s : State) (r : RegIdx) (v : Word) : SameRest s (s.writeReg r v) :=
  ⟨writeReg_cfg s r v, writeReg_status s r v, writeReg_trace s r v, writeReg_oracle s r v⟩

theorem hostGetReg_of_lt (s : State) (i : RegIdx) : hostGetReg i.val s = some (s.readReg i) := dif_pos i.isLt

theorem hostSetReg_of_lt (s : State) (i : RegIdx) (v : Word) : hostSetReg i.val v s = .next (s.writeReg i v) :=
  dif_pos i.isLt

/-- Settles O16: each setter is a record update or a register write, whose frame the laws of the state give. -/
theorem hostPortAccessors : Obligations.HostPortAccessors := by
  intro s v a
  refine ⟨?pc, ?sp, fun i => ?reg, fun i above => ?outside, fun i => ?regs, ?frame⟩
  case pc => exact ⟨rfl, rfl, fun _ => rfl, ⟨rfl, fun _ => rfl⟩, rfl, rfl, rfl, rfl⟩
  case sp =>
    exact ⟨rfl, writeReg_regsAfterWrite s regSp v, writeReg_pc s regSp v, writeReg_sameMemory s regSp v,
      writeReg_sameRest s regSp v⟩
  case reg =>
    exact ⟨hostGetReg_of_lt s i, _, hostSetReg_of_lt s i v, writeReg_regsAfterWrite s i v, writeReg_pc s i v,
      writeReg_sameMemory s i v, writeReg_sameRest s i v⟩
  case outside => exact ⟨dif_neg (by omega), dif_neg (by omega)⟩
  case regs => exact ⟨hostGetRegs_getElem s i, readReg_hostSetRegs a s i⟩
  case frame => exact ⟨rfl, ⟨rfl, fun _ => rfl⟩, rfl, rfl, rfl, rfl⟩

/-! ## The pc stays even -/

/-- The offset an instruction may add to the pc: a branch's or JAL's immediate. -/
def pcOffset : Instr → Option Word
  | .beq _ _ imm | .bne _ _ imm | .blt _ _ imm | .bge _ _ imm | .bltu _ _ imm | .bgeu _ _ imm => some imm
  | .jal _ imm => some imm
  | _ => none

/-- The offset a format can hold is even (R322). -/
theorem pcOffset_even {i : Instr} {imm : Word} (wf : i.wellFormed = true) (h : pcOffset i = some imm) :
    imm.toNat % 2 = 0 := by
  have even : imm.toInt % 2 = 0 := by
    cases i <;> cases h
    all_goals exact (of_decide_eq_true wf).1
  rw [BitVec.toInt_eq_toNat_cond] at even
  split at even <;> omega

theorem clearBit0_even (v : Word) : (clearBit0 v).toNat % 2 = 0 := by
  have bit : (clearBit0 v).getLsbD 0 = false := by simp [clearBit0]
  rw [← BitVec.testBit_toNat, Nat.testBit_zero] at bit
  simpa using bit

theorem add_even {a b : Word} (ha : a.toNat % 2 = 0) (hb : b.toNat % 2 = 0) : (a + b).toNat % 2 = 0 := by
  rw [BitVec.toNat_add]
  omega

theorem complete_pc {s t : State} (h : complete s = .next t) : t.pc = s.pc + 4 := by
  cases h; rfl

theorem writeResult_pc {rd : RegIdx} {v : Word} {s t : State} (h : writeResult rd v s = .next t) : t.pc = s.pc + 4 := by
  rw [complete_pc h, writeReg_pc]

/-- Everything one instruction can do to the pc: keep it, where the run ends; advance it; add the instruction's offset; or
set it to a target with bit 0 cleared (R420, R421, R425, R750, R751). -/
theorem exec_pc_cases {i : Instr} {s t : State} (h : exec i s = .next t) :
    t.pc = s.pc ∨ t.pc = s.pc + 4 ∨ (∃ imm, pcOffset i = some imm ∧ t.pc = s.pc + imm) ∨
    ∃ v, t.pc = clearBit0 v := by
  cases i
  case add | sub | sll | slt | sltu | xor | srl | sra | or | and | addi | slti | sltiu | xori | ori | andi | slli | srli
      | srai | lui | auipc => exact .inr (.inl (writeResult_pc h))
  case lb | lh | lw | lbu | lhu =>
    rcases loadInto_cases _ _ _ _ _ s with ⟨v, h'⟩ | ⟨e, h'⟩
    · exact .inr (.inl (writeResult_pc (h'.symm.trans h)))
    · cases h'.symm.trans h; exact .inl rfl
  case sb | sh | sw =>
    rcases storeFrom_cases _ _ _ _ s with ⟨a, bs, -, h'⟩ | ⟨e, h'⟩
    · exact .inr (.inl (complete_pc (h'.symm.trans h) :))
    · cases h'.symm.trans h; exact .inl rfl
  case beq | bne | blt | bge | bltu | bgeu =>
    cases (branchIf_eq _ _ s).symm.trans h
    rw [jumpTo_pc]
    split
    · exact .inr (.inr (.inl ⟨_, rfl, rfl⟩))
    · exact .inr (.inl rfl)
  case jal rd imm =>
    cases h
    rw [jumpTo_pc, jalTarget]
    split
    · exact .inr (.inr (.inr ⟨_, rfl⟩))
    · exact .inr (.inr (.inl ⟨imm, rfl, rfl⟩))
  case jalr => cases h; exact .inr (.inr (.inr ⟨_, rfl⟩))
  case fence | fenceI | ebreak | csrrw | csrrs | csrrc | csrrwi | csrrsi | csrrci => exact .inr (.inl (complete_pc h))
  case ecall =>
    rcases execEcall_cases s with ⟨e, h'⟩ | ⟨-, h'⟩ | ⟨-, v, o, h'⟩ | ⟨-, bs, o, -, h'⟩ | ⟨stream, item, h'⟩ | ⟨-, h'⟩
    case inl => cases h'.symm.trans h; exact .inl rfl
    all_goals have h' := h'.symm.trans h
    · rw [sbrkCall_eq] at h'
      split at h'
      · exact .inr (.inl (writeResult_pc h' :))
      · exact .inr (.inl (complete_pc h' :))
    · exact .inr (.inl (writeResult_pc h' :))
    · exact .inr (.inl (complete_pc h' :))
    · exact .inr (.inl (complete_pc h' :))
    · cases h'; exact .inl rfl

theorem exec_keeps_pc_even {i : Instr} {s t : State} (wf : i.wellFormed = true) (even : s.pc.toNat % 2 = 0)
    (h : exec i s = .next t) : t.pc.toNat % 2 = 0 := by
  rcases exec_pc_cases h with pc | pc | ⟨imm, offset, pc⟩ | ⟨v, pc⟩ <;> rw [pc]
  · exact even
  · exact add_even even rfl
  · exact add_even even (pcOffset_even wf offset)
  · exact clearBit0_even v

theorem execute_keeps_pc_even {c : Config} {w : Word} {s t : State} (even : s.pc.toNat % 2 = 0)
    (h : execute (decode c w) s = .next t) : t.pc.toNat % 2 = 0 := by
  unfold execute at h
  split at h
  · cases h; exact even
  · split at h
    · rename_i decoded; exact exec_keeps_pc_even (decodeInstr_wellFormed decoded) even h
    · cases h; exact even

/-- The force of register 0 leaves the pc that the dispatch gave. -/
theorem afterDispatch_pc {r : Result} {t : State} (h : afterDispatch r = .next t) :
    ∃ u, r = .next u ∧ t.pc = u.pc := by
  unfold afterDispatch at h
  split at h
  · split at h <;> cases h <;> exact ⟨_, rfl, rfl⟩
  · cases h
  · cases h

/-- Settles O28: every way to set the pc keeps it even (`exec_pc_cases`), since the decoder's B and J immediates are even
and JALR clears bit 0. -/
theorem stepKeepsPcEven : Obligations.StepKeepsPcEven := by
  intro s t even h
  by_cases running : s.status = .running
  · rcases step_cases s running with ⟨e, -, h'⟩ | ⟨w, -, h'⟩
    · cases h'.symm.trans h; exact even
    · obtain ⟨u, dispatched, pc⟩ := afterDispatch_pc (h'.symm.trans h)
      rw [pc]; exact execute_keeps_pc_even even dispatched
  · cases (step_ended s running).symm.trans h

end Sys2Proof.Machine
end

section
/-! Proofs of the memory family: the checked accesses (R201 to R205), a read after a write (R209, R210, R223), and what
writes memory (R221). -/

namespace Sys2Proof

/-! ## The bytes of a value -/

/-- Byte i of a value moved down by k bytes is byte k + i of the value. -/
theorem extractLsb'_ushiftRight_bytes (v : Word) (k i : Nat) :
    (v >>> (8 * k)).extractLsb' (8 * i) 8 = v.extractLsb' (8 * (k + i)) 8 := by
  ext bit
  simp [BitVec.getLsbD_ushiftRight, Nat.mul_add, Nat.add_assoc]

/-- The accesses of the spec are at most a word wide (R201). -/
theorem accessWidth_le_four {n : Nat} (h : n ∈ [1, 2, 4]) : n ≤ 4 := by
  simp only [List.mem_cons, List.not_mem_nil, or_false] at h
  omega

end Sys2Proof

namespace Sys2Proof.Machine

/-! ## The two answers of a checked access -/

section CheckedAccess

variable {s : State} {addr v : Word} {n : Nat}

theorem memRead_of_past_end (past : s.mem.size < addr.toNat + n) :
    s.memRead addr n = .error (.addressOutOfBounds addr n) :=
  (memRead_error_iff s addr n _).mpr ⟨past, rfl⟩

theorem memWrite_of_past_end (past : s.mem.size < addr.toNat + n) :
    s.memWrite addr n v = .error (.addressOutOfBounds addr n) :=
  (memWrite_error_iff s addr n v _).mpr ⟨past, rfl⟩

theorem memRead_of_within (within : addr.toNat + n ≤ s.mem.size) :
    s.memRead addr n = .ok (leWord (s.mem.readBytes addr.toNat n)) :=
  (memRead_ok_iff s addr n _).mpr ⟨within, rfl⟩

theorem memWrite_of_within (within : addr.toNat + n ≤ s.mem.size) :
    s.memWrite addr n v = .ok { s with mem := s.mem.writeBytes addr.toNat (leBytes n v) } :=
  (memWrite_ok_iff s _ addr n v).mpr ⟨within, rfl⟩

end CheckedAccess

/-- Settles O9: both accessors make the one bounds check, on the sum of the address as a number and the width. -/
theorem boundsCheckOfEveryAccess : Obligations.BoundsCheckOfEveryAccess := fun _ _ _ _ _ =>
  ⟨fun past => ⟨memRead_of_past_end past, memWrite_of_past_end past⟩,
    fun within => ⟨⟨_, memRead_of_within within⟩, _, memWrite_of_within within⟩⟩

/-- The word of up to four bytes of memory has no bit above them (R202). -/
theorem leWord_readBytes_lt (m : Memory) (a : Nat) {n : Nat} (width : n ≤ 4) :
    (leWord (m.readBytes a n)).toNat < 2 ^ (8 * n) := by
  have bound := leWord_lt (m.readBytes a n) (by rwa [readBytes_length])
  rwa [readBytes_length, show 256 = 2 ^ 8 from rfl, ← Nat.pow_mul] at bound

/-- Settles O10: the word read is the sum of its bytes (`leWord_readBytes_toNat`), within 8n bits
(`leWord_readBytes_lt`). -/
theorem readIsLittleEndianSum : Obligations.ReadIsLittleEndianSum := fun s addr n width =>
  have width := accessWidth_le_four width
  ⟨memRead_of_past_end, fun within =>
    ⟨_, memRead_of_within within, leWord_readBytes_toNat s.mem addr.toNat n width,
      leWord_readBytes_lt s.mem addr.toNat width⟩⟩

/-- A value written changes no byte of memory outside its own (R204). -/
theorem withMem_sameMemoryOutside (s : State) (a n : Nat) (v : Word) :
    SameMemoryOutside a n s { s with mem := s.mem.writeBytes a (leBytes n v) } :=
  ⟨writeBytes_size s.mem a _, fun b => readByte_writeBytes_outside s.mem a n b v⟩

/-- Settles O11: the bytes inside the access are the value's (`readByte_writeBytes_leBytes`), and the write is an update
of the memory alone. -/
theorem writePutsLittleEndianBytes : Obligations.WritePutsLittleEndianBytes := fun s addr v n _ =>
  ⟨memWrite_of_past_end, fun within =>
    ⟨_, memWrite_of_within within, fun k => readByte_writeBytes_leBytes s.mem addr.toNat n k v,
      withMem_sameMemoryOutside s addr.toNat n v, fun _ => rfl, rfl, rfl, rfl, rfl, rfl⟩⟩

/-! ## A read after a write -/

/-- Bytes read within a value just written are the bytes of the value from the one at the first address read. -/
theorem readBytes_writeBytes_within (m : Memory) (a : Nat) (v : Word) {n k j : Nat} (inside : k + j ≤ n) :
    (m.writeBytes a (leBytes n v)).readBytes (a + k) j = leBytes j (v >>> (8 * k)) := by
  apply List.ext_getElem?
  intro i
  by_cases hi : i < j
  · rw [readBytes_getElem? _ _ _ _ hi, Nat.add_assoc, readByte_writeBytes_leBytes m a n (k + i) v (by omega),
      leBytes_getElem? _ _ _ hi, extractLsb'_ushiftRight_bytes]
  · rw [List.getElem?_eq_none (by rw [readBytes_length]; omega), List.getElem?_eq_none (by rw [leBytes_length]; omega)]

/-- A read of j bytes within a value just written, k bytes above its address, gives bytes k to k + j - 1 of the value
(R209, R210). -/
theorem memRead_within_memWrite {s t : State} {addr p v : Word} {n k j : Nat} (written : s.memWrite addr n v = .ok t)
    (inside : k + j ≤ n) (place : p.toNat = addr.toNat + k) :
    t.memRead p j = .ok (leWord (leBytes j (v >>> (8 * k)))) := by
  obtain ⟨within, rfl⟩ := (memWrite_ok_iff s t addr n v).mp written
  refine (memRead_ok_iff _ p j _).mpr ⟨?_, ?_⟩
  · rw [writeBytes_size]; omega
  · rw [place, readBytes_writeBytes_within s.mem addr.toNat v inside]

theorem memRead_memWrite_word {s t : State} {addr v : Word} (written : s.memWrite addr 4 v = .ok t) :
    t.memRead addr 4 = .ok v := by
  rw [memRead_within_memWrite (k := 0) written (by decide) rfl]
  exact congrArg _ (leWord_leBytes_four v)

/-- Settles O12: each of the three reads lies within the word written (`memRead_within_memWrite`), and the word of its
bytes is the bits the statement names (`leWord_leBytes`). -/
theorem loadAfterStoreAndMixedWidths : Obligations.LoadAfterStoreAndMixedWidths := by
  intro s t addr v written
  refine ⟨memRead_memWrite_word written, ?byte, fun room => ?half⟩
  case byte =>
    rw [memRead_within_memWrite (k := 0) written (by decide) rfl, leWord_leBytes 1 _ (by decide)]
    rfl
  case half =>
    have place : (addr + 1).toNat = addr.toNat + 1 := by bv_omega
    rw [memRead_within_memWrite written (by decide) place, leWord_leBytes 2 _ (by decide), BitVec.toNat_ushiftRight,
      Nat.shiftRight_eq_div_pow]
    rfl

theorem memWrite_pc {s t : State} {addr v : Word} {n : Nat} (written : s.memWrite addr n v = .ok t) : t.pc = s.pc := by
  obtain ⟨-, rfl⟩ := (memWrite_ok_iff s t addr n v).mp written
  rfl

/-- Settles O29: the fetch is a read of four bytes at the pc, which the write leaves where it was. -/
theorem fetchSeesEarlierStore : Obligations.FetchSeesEarlierStore := by
  intro s t w written
  rw [fetch, memWrite_pc written]
  exact memRead_memWrite_word written

/-! ## What writes memory -/

/-- Everything one instruction can do to memory: nothing; or write it, which stores do, and ECALL for read string alone
(R221). -/
theorem exec_mem_cases {i : Instr} {s t : State} (h : exec i s = .next t) :
    t.mem = s.mem ∨ isStore i = true ∨ (i = .ecall ∧ syscallOf s.cfg (s.readReg regA7) = some .readString) := by
  have kept {u : State} (next : exec i s = .next u) (same : u.mem = s.mem) : t.mem = s.mem := by
    cases next.symm.trans h; exact same
  rcases exec_cases i s with
    ⟨e, h'⟩ | ⟨-, rd, v, a, -, h'⟩ | ⟨a, h'⟩ | ⟨store, -⟩ |
      ⟨rfl, ⟨-, h'⟩ | ⟨-, v, o, h'⟩ | ⟨call, -⟩ | ⟨stream, item, h'⟩ | ⟨-, h'⟩⟩
  · exact .inl (kept h' rfl)
  · exact .inl (kept h' (writeReg_mem s rd v))
  · exact .inl (kept h' rfl)
  · exact .inr (.inl store)
  · exact .inl (kept h' (writeReg_mem s regA0 s.cfg.heapStart))
  · exact .inl (kept h' (writeReg_mem { s with oracle := o } regA0 v))
  · exact .inr (.inr ⟨rfl, call⟩)
  · exact .inl (kept h' rfl)
  · exact .inl (kept h' rfl)

/-- Settles O33: an instruction that changes memory is a store or a read-string call (`exec_mem_cases`). -/
theorem onlyStoresAndReadStringWriteMemory : Obligations.OnlyStoresAndReadStringWriteMemory := by
  intro i s t h notStore notReadString
  rcases exec_mem_cases h with same | store | ⟨isEcall, call⟩
  · exact same
  · cases notStore.symm.trans store
  · exact absurd call (notReadString isEcall)

end Sys2Proof.Machine
end

section
/-! Proofs of the encoding family: the fields and immediates of every word (R301, R321), the illegal space (R350), the
decoder and the encoder as inverses of one another (R310 to R351), and the immediate shifts (R324, R506 to R508). -/

namespace Sys2Proof

/-! ## The fixed fields of every word (R301), and the words the spec writes out -/

/-- Settles O4: the record's fields are the word's fields, each with its number (`groupField_toNat` and its like). -/
theorem fixedFieldsOfEveryWord : Obligations.FixedFieldsOfEveryWord := fun _ w =>
  ⟨groupField_toNat w, rdField_toNat w, funct3Field_toNat w, rs1Field_toNat w, rs2Field_toNat w, funct7Field_toNat w⟩

/-- Settles O1: sixteen fixed words, each evaluated by the decoder. -/
theorem specWordsDecode : Obligations.SpecWordsDecode := by
  unfold Obligations.SpecWordsDecode
  decide

/-! ## Immediates as numbers (R321) -/

theorem place_toNat {n k : Nat} (room : k + n ≤ 32) (b : BitVec n) : (place k b).toNat = b.toNat * 2 ^ k := by
  have bound : b.toNat * 2 ^ k < 2 ^ 32 := calc
    b.toNat * 2 ^ k < 2 ^ n * 2 ^ k := Nat.mul_lt_mul_of_pos_right b.isLt (by positivity)
    _ = 2 ^ (k + n) := by rw [← Nat.pow_add, Nat.add_comm]
    _ ≤ 2 ^ 32 := Nat.pow_le_pow_right (by decide) room
  have narrow : b.toNat < 2 ^ 32 := lt_of_lt_of_le b.isLt (Nat.pow_le_pow_right (by decide) (by omega))
  rw [place, BitVec.toNat_shiftLeft, BitVec.toNat_setWidth, Nat.mod_eq_of_lt narrow, Nat.shiftLeft_eq,
    Nat.mod_eq_of_lt bound]

/-- A piece of a word placed at bit k has the piece's weight (R321). -/
theorem piece_toNat {k n : Nat} (w : Word) (j : Nat) (room : k + n ≤ 32) :
    (place k (w.extractLsb' j n)).toNat = w.toNat / 2 ^ j % 2 ^ n * 2 ^ k := by
  rw [place_toNat room, BitVec.extractLsb'_toNat, Nat.shiftRight_eq_div_pow]

/-- A piece placed below all the bits of the pieces before it adds its own weight to theirs. -/
theorem or_piece_toNat {k n x : Nat} {v : Word} (w : Word) (j : Nat) (before : v.toNat = x) (above : 2 ^ (k + n) ∣ x)
    (room : k + n ≤ 32) : (v ||| place k (w.extractLsb' j n)).toNat = x + w.toNat / 2 ^ j % 2 ^ n * 2 ^ k := by
  obtain ⟨q, rfl⟩ := above
  have small : w.toNat / 2 ^ j % 2 ^ n * 2 ^ k < 2 ^ (k + n) := by
    rw [Nat.pow_add, Nat.mul_comm]
    exact Nat.mul_lt_mul_of_pos_left (Nat.mod_lt _ (by positivity)) (by positivity)
  rw [BitVec.toNat_or, before, piece_toNat w j room, Nat.two_pow_add_eq_or_of_lt small]

/-- `sext_N` of a number of N bits: bit N-1 has negative weight, the bits below it their own (R15, R321). -/
theorem sext_toInt_of_sign {n sign rest : Nat} {v : Word} (n_lt : n < 32) (value : v.toNat = sign * 2 ^ n + rest)
    (bit : sign ≤ 1) (low : rest < 2 ^ n) : (sext (n + 1) v).toInt = -2 ^ n * (sign : Int) + rest := by
  have low : (rest : Int) < 2 ^ n := by exact_mod_cast low
  have modulus : ((2 ^ (n + 1) : Nat) : Int) = 2 * 2 ^ n := by push_cast; ring
  have split : (v.toNat : Int) = -2 ^ n * sign + rest + (2 ^ (n + 1) : Nat) * sign := by
    rw [modulus, value]; push_cast; ring
  rw [sext_toInt _ _ n_lt, split, Int.add_mul_bmod_self_left]
  apply Int.bmod_eq_of_le <;> rw [modulus] <;> interval_cases sign <;> push_cast <;> omega

theorem immI_toInt (w : Word) :
    (immI w).toInt = -2048 * (w.toNat / 2 ^ 31 : Nat) + (w.toNat / 2 ^ 20 % 2 ^ 11 : Nat) := by
  have b31 := piece_toNat (k := 0) (n := 12) w 20 (by decide)
  exact sext_toInt_of_sign (n := 11) (by decide) (b31.trans (by omega)) (by omega) (by omega)

theorem immS_toInt (w : Word) :
    (immS w).toInt = -2048 * (w.toNat / 2 ^ 31 : Nat) + 32 * (w.toNat / 2 ^ 25 % 2 ^ 6 : Nat)
      + (w.toNat / 2 ^ 7 % 2 ^ 5 : Nat) := by
  have b31 := piece_toNat (k := 5) (n := 7) w 25 (by decide)
  have b11 := or_piece_toNat (k := 0) (n := 5) w 7 b31 (by omega) (by decide)
  have signed := sext_toInt_of_sign (n := 11) (sign := w.toNat / 2 ^ 31)
    (rest := 32 * (w.toNat / 2 ^ 25 % 2 ^ 6) + w.toNat / 2 ^ 7 % 2 ^ 5)
    (by decide) (b11.trans (by omega)) (by omega) (by omega)
  exact signed.trans (by push_cast; ring)

theorem immB_toInt (w : Word) :
    (immB w).toInt = -4096 * (w.toNat / 2 ^ 31 : Nat) + 2048 * (w.toNat / 2 ^ 7 % 2 : Nat)
      + 32 * (w.toNat / 2 ^ 25 % 2 ^ 6 : Nat) + 2 * (w.toNat / 2 ^ 8 % 2 ^ 4 : Nat) := by
  have b31 := piece_toNat (k := 12) (n := 1) w 31 (by decide)
  have b7 := or_piece_toNat (k := 11) (n := 1) w 7 b31 (by omega) (by decide)
  have b30 := or_piece_toNat (k := 5) (n := 6) w 25 b7 (by omega) (by decide)
  have b11 := or_piece_toNat (k := 1) (n := 4) w 8 b30 (by omega) (by decide)
  have signed := sext_toInt_of_sign (n := 12) (sign := w.toNat / 2 ^ 31)
    (rest := 2048 * (w.toNat / 2 ^ 7 % 2) + 32 * (w.toNat / 2 ^ 25 % 2 ^ 6) + 2 * (w.toNat / 2 ^ 8 % 2 ^ 4))
    (by decide) (b11.trans (by omega)) (by omega) (by omega)
  exact signed.trans (by push_cast; ring)

theorem immJ_toInt (w : Word) :
    (immJ w).toInt = -1048576 * (w.toNat / 2 ^ 31 : Nat) + 4096 * (w.toNat / 2 ^ 12 % 2 ^ 8 : Nat)
      + 2048 * (w.toNat / 2 ^ 20 % 2 : Nat) + 2 * (w.toNat / 2 ^ 21 % 2 ^ 10 : Nat) := by
  have b31 := piece_toNat (k := 20) (n := 1) w 31 (by decide)
  have b19 := or_piece_toNat (k := 12) (n := 8) w 12 b31 (by omega) (by decide)
  have b20 := or_piece_toNat (k := 11) (n := 1) w 20 b19 (by omega) (by decide)
  have b30 := or_piece_toNat (k := 1) (n := 10) w 21 b20 (by omega) (by decide)
  have signed := sext_toInt_of_sign (n := 20) (sign := w.toNat / 2 ^ 31)
    (rest := 4096 * (w.toNat / 2 ^ 12 % 2 ^ 8) + 2048 * (w.toNat / 2 ^ 20 % 2) + 2 * (w.toNat / 2 ^ 21 % 2 ^ 10))
    (by decide) (b30.trans (by omega)) (by omega) (by omega)
  exact signed.trans (by push_cast; ring)

/-- Settles O5: each signed immediate is its sign bit's piece and the pieces below it (`sext_toInt_of_sign`). -/
theorem immediateLayouts : Obligations.ImmediateLayouts := fun w =>
  ⟨immI_toInt w, immS_toInt w, immB_toInt w, immU_toNat w, immJ_toInt w, rfl, rfl⟩

/-! ## The illegal space, table by table (R350) -/

theorem inCategory_illegal_iff {k : Category} (legal : k ≠ .illegal) {m : Mnemonic} :
    (inCategory k m).1 = .illegal ↔ m = .illegal := by
  by_cases illegal : m = .illegal <;> simp [inCategory, illegal, legal]

/-- A choice between two mnemonics by two exact matches is illegal where neither matches. -/
theorem choice_illegal_iff {p q : Prop} [Decidable p] [Decidable q] {a b : Mnemonic} (ha : a ≠ .illegal)
    (hb : b ≠ .illegal) : (if p then a else if q then b else .illegal) = .illegal ↔ ¬ p ∧ ¬ q := by
  by_cases p
  · simp [*]
  · by_cases q <;> simp [*]

section
variable {f7 : BitVec 7} {f3 : BitVec 3}

theorem opTable_illegal_iff :
    opTable f7 f3 = .illegal ↔ ¬ (f7.toNat = 0 ∨ (f7.toNat = 32 ∧ (f3.toNat = 0 ∨ f3.toNat = 5))) := by
  by_cases zero : f7 = 0b0000000#7
  · subst zero
    revert f3
    decide
  by_cases alt : f7 = 0b0100000#7
  · subst alt
    revert f3
    decide
  have illegal : opTable f7 f3 = .illegal := by simp [opTable, zero, alt]
  simp_all [BitVec.toNat_eq]

theorem opImmTable_illegal_iff : opImmTable f7 f3 = .illegal ↔
    (f3.toNat = 1 ∧ f7.toNat ≠ 0) ∨ (f3.toNat = 5 ∧ f7.toNat ≠ 0 ∧ f7.toNat ≠ 32) := by
  unfold opImmTable
  split <;> simp_all [BitVec.toNat_eq, choice_illegal_iff]
  omega

theorem loadTable_illegal_iff : loadTable f3 = .illegal ↔ f3.toNat = 3 ∨ f3.toNat = 6 ∨ f3.toNat = 7 := by
  revert f3
  decide

theorem storeTable_illegal_iff : storeTable f3 = .illegal ↔ 3 ≤ f3.toNat := by
  revert f3
  decide

theorem branchTable_illegal_iff : branchTable f3 = .illegal ↔ f3.toNat = 2 ∨ f3.toNat = 3 := by
  revert f3
  decide

theorem jalrTable_illegal_iff : jalrTable f3 = .illegal ↔ f3.toNat ≠ 0 := by
  revert f3
  decide

end

theorem miscMemTable_illegal_iff {c : Config} {w : Word} :
    miscMemTable c w = .illegal ↔ w ≠ c.fenceWord ∧ w ≠ c.fenceIWord :=
  choice_illegal_iff (by decide) (by decide)

theorem systemTable_illegal_iff {w : Word} : systemTable w = .illegal ↔
    ((funct3Field w).toNat = 0 ∧ w ≠ 0x00000073 ∧ w ≠ 0x00100073) ∨ (funct3Field w).toNat = 4 := by
  unfold systemTable
  split <;> simp_all [BitVec.toNat_eq, choice_illegal_iff]
  omega

/-- Settles O6: in each group a word is illegal where the group's table has no entry for it, and outside the eleven
groups always. -/
theorem illegalSpaceIsExact : Obligations.IllegalSpaceIsExact := by
  intro c w g f3 f7
  have hg : (groupField w).toNat = g := groupField_toNat w
  have h3 : (funct3Field w).toNat = f3 := funct3Field_toNat w
  have h7 : (funct7Field w).toNat = f7 := funct7Field_toNat w
  clear_value g f3 f7
  subst hg h3 h7
  show (classify c w).1 = .illegal ↔ _
  unfold classify
  split
  next g => simp [g, inCategory_illegal_iff, opTable_illegal_iff]
  next g => simp [g, inCategory_illegal_iff, opImmTable_illegal_iff]
  next g => simp [g, inCategory_illegal_iff, loadTable_illegal_iff]
  next g => simp [g, inCategory_illegal_iff, storeTable_illegal_iff]
  next g => simp [g, inCategory_illegal_iff, branchTable_illegal_iff]
  next g => simp [g]
  next g => simp [g]
  next g => simp [g]
  next g => simp [g, inCategory_illegal_iff, jalrTable_illegal_iff]
  next g => simp [g, inCategory_illegal_iff, miscMemTable_illegal_iff]
  next g => simp [g, inCategory_illegal_iff, systemTable_illegal_iff]
  next => simp_all [BitVec.toNat_eq]

/-! ## A word read under a row of the opcode tables -/

/-- The record of a word read under a category and a mnemonic. -/
def readAs (k : Category) (m : Mnemonic) (w : Word) : Record where
  raw := w
  group := groupField w
  funct3 := funct3Field w
  funct7 := funct7Field w
  rd := (rdField w).toFin
  rs1 := (rs1Field w).toFin
  rs2 := (rs2Field w).toFin
  imm := immOf (formatOf k m) w
  category := k
  mnemonic := m

theorem decode_eq_readAs (c : Config) (w : Word) : decode c w = readAs (classify c w).1 (classify c w).2 w := rfl

theorem toInstr_readAs_illegal (k : Category) (w : Word) : (readAs k .illegal w).toInstr = none := by
  cases k <;> rfl

/-- A word stands for what its group's category and its table's mnemonic read from it. -/
theorem decodeInstr_of_classify {c : Config} {w : Word} {k : Category} {m : Mnemonic}
    (row : classify c w = inCategory k m) : decodeInstr c w = (readAs k m w).toInstr := by
  rw [decodeInstr, decode_eq_readAs, row]
  by_cases illegal : m = .illegal
  · subst illegal
    rw [toInstr_readAs_illegal]
    rfl
  · rw [inCategory, if_neg illegal]

/-! ## The row of an encoded word (R330 to R338) -/

section
variable (c : Config) (f7 : BitVec 7) (f3 : BitVec 3) (rd rs1 rs2 : RegIdx) (imm : Word)

theorem classify_encodeOp :
    classify c (encodeOp f7 f3 rd rs1 rs2) = inCategory .registerRegister (opTable f7 f3) := by
  simp [classify, encodeOp]

theorem classify_encodeShift (shamt : BitVec 5) :
    classify c (encodeShift f7 f3 rd rs1 shamt) = inCategory .immediate (opImmTable f7 f3) := by
  simp [classify, encodeShift]

theorem classify_encodeImm_opImm :
    classify c (encodeImm 0b0010011#7 f3 rd rs1 imm) =
      inCategory .immediate (opImmTable (funct7Field (encodeImm 0b0010011#7 f3 rd rs1 imm)) f3) := by
  simp [classify, encodeImm]

theorem classify_encodeImm_load :
    classify c (encodeImm 0b0000011#7 f3 rd rs1 imm) = inCategory .load (loadTable f3) := by
  simp [classify, encodeImm]

theorem classify_encodeImm_jalr :
    classify c (encodeImm 0b1100111#7 f3 rd rs1 imm) = inCategory .jump (jalrTable f3) := by
  simp [classify, encodeImm]

theorem classify_encodeS :
    classify c (encodeS imm (regBits rs2) (regBits rs1) f3 0b0100011#7) = inCategory .store (storeTable f3) := by
  simp [classify]

theorem classify_encodeB :
    classify c (encodeB imm (regBits rs2) (regBits rs1) f3 0b1100011#7) = inCategory .branch (branchTable f3) := by
  simp [classify]

theorem classify_lui :
    classify c (encodeU imm (regBits rd) 0b0110111#7) = inCategory .upperImmediate .lui := by
  rw [classify, groupField_encodeU]
  rfl

theorem classify_auipc :
    classify c (encodeU imm (regBits rd) 0b0010111#7) = inCategory .upperImmediate .auipc := by
  rw [classify, groupField_encodeU]
  rfl

theorem classify_encodeJ :
    classify c (encodeJ imm (regBits rd) 0b1101111#7) = inCategory .jump .jal := by
  rw [classify, groupField_encodeJ]
  rfl

theorem classify_system {w : Word} (g : groupField w = 0b1110011#7) :
    classify c w = inCategory .system (systemTable w) := by
  rw [classify, g]
  rfl

theorem classify_miscMem {w : Word} (g : groupField w = 0b0001111#7) :
    classify c w = inCategory .fence (miscMemTable c w) := by
  rw [classify, g]
  rfl

end

/-! ## Decoding an encoded word

Each lemma reads an encoded word's row as an instruction of the word's own fields (`row`), and those fields are the
operands. -/

section
variable {c : Config} {f7 : BitVec 7} {f3 : BitVec 3} {rd rs1 rs2 : RegIdx} {imm : Word} {k : Category} {m : Mnemonic}

theorem decodeInstr_encodeOp {i : RegIdx → RegIdx → RegIdx → Instr}
    (row : ∀ w, (readAs .registerRegister (opTable f7 f3) w).toInstr =
      some (i (rdField w).toFin (rs1Field w).toFin (rs2Field w).toFin)) :
    decodeInstr c (encodeOp f7 f3 rd rs1 rs2) = some (i rd rs1 rs2) := by
  rw [decodeInstr_of_classify (classify_encodeOp ..), row]
  simp [encodeOp]

theorem decodeInstr_encodeShift {i : RegIdx → RegIdx → BitVec 5 → Instr} {shamt : BitVec 5}
    (row : ∀ w, (readAs .immediate (opImmTable f7 f3) w).toInstr =
      some (i (rdField w).toFin (rs1Field w).toFin ((immI w).setWidth 5))) :
    decodeInstr c (encodeShift f7 f3 rd rs1 shamt) = some (i rd rs1 shamt) := by
  rw [decodeInstr_of_classify (classify_encodeShift ..), row]
  simp [encodeShift, immI_shamt]

theorem decodeInstr_encodeImm {i : RegIdx → RegIdx → Word → Instr} {op : BitVec 7}
    (group : classify c (encodeImm op f3 rd rs1 imm) = inCategory k m)
    (row : ∀ w, (readAs k m w).toInstr = some (i (rdField w).toFin (rs1Field w).toFin (immI w)))
    (fits : fitsI imm = true) : decodeInstr c (encodeImm op f3 rd rs1 imm) = some (i rd rs1 imm) := by
  rw [decodeInstr_of_classify group, row, immI_encodeImm op f3 rd rs1 fits]
  simp [encodeImm]

theorem decodeInstr_encodeS {i : RegIdx → RegIdx → Word → Instr}
    (row : ∀ w, (readAs .store (storeTable f3) w).toInstr = some (i (rs1Field w).toFin (rs2Field w).toFin (immS w)))
    (fits : fitsI imm = true) :
    decodeInstr c (encodeS imm (regBits rs2) (regBits rs1) f3 0b0100011#7) = some (i rs1 rs2 imm) := by
  rw [decodeInstr_of_classify (classify_encodeS ..), row, immS_encodeS_of_fits _ _ _ _ fits]
  simp

theorem decodeInstr_encodeB {i : RegIdx → RegIdx → Word → Instr}
    (row : ∀ w, (readAs .branch (branchTable f3) w).toInstr = some (i (rs1Field w).toFin (rs2Field w).toFin (immB w)))
    (fits : fitsB imm = true) :
    decodeInstr c (encodeB imm (regBits rs2) (regBits rs1) f3 0b1100011#7) = some (i rs1 rs2 imm) := by
  rw [decodeInstr_of_classify (classify_encodeB ..), row, immB_encodeB_of_fits _ _ _ _ fits]
  simp

theorem decodeInstr_encodeU {i : RegIdx → Word → Instr} {op : BitVec 7}
    (group : classify c (encodeU imm (regBits rd) op) = inCategory .upperImmediate m)
    (row : ∀ w, (readAs .upperImmediate m w).toInstr = some (i (rdField w).toFin (immU w)))
    (fits : fitsU imm = true) : decodeInstr c (encodeU imm (regBits rd) op) = some (i rd imm) := by
  rw [decodeInstr_of_classify group, row, immU_encodeU _ _ _ fits]
  simp

theorem decodeInstr_encodeJ (fits : fitsJ imm = true) :
    decodeInstr c (encodeJ imm (regBits rd) 0b1101111#7) = some (.jal rd imm) := by
  have row (w : Word) : (readAs .jump .jal w).toInstr = some (.jal (rdField w).toFin (immJ w)) := rfl
  rw [decodeInstr_of_classify (classify_encodeJ ..), row, immJ_encodeJ_of_fits _ _ fits]
  simp

theorem decodeInstr_encodeCsr {i : RegIdx → BitVec 5 → BitVec 12 → Instr} {mid : BitVec 5} {csr : BitVec 12}
    (row : ∀ w, funct3Field w = f3 → (readAs .system (systemTable w) w).toInstr =
      some (i (rdField w).toFin (rs1Field w) (imm12Field w))) :
    decodeInstr c (encodeCsr f3 rd mid csr) = some (i rd mid csr) := by
  rw [encodeCsr, decodeInstr_of_classify (classify_system c (groupField_encodeI ..)), row _ (funct3Field_encodeI ..)]
  simp

theorem decodeInstr_encodeCsr_reg {i : RegIdx → RegIdx → BitVec 12 → Instr} {csr : BitVec 12}
    (row : ∀ w, funct3Field w = f3 → (readAs .system (systemTable w) w).toInstr =
      some (i (rdField w).toFin (rs1Field w).toFin (imm12Field w))) :
    decodeInstr c (encodeCsr f3 rd (regBits rs1) csr) = some (i rd rs1 csr) :=
  decodeInstr_encodeCsr (i := fun rd mid csr => i rd mid.toFin csr) row

end

theorem decodeInstr_encode {c : Config} (legal : c.wf) (i : Instr) (wf : i.wellFormed = true) :
    decodeInstr c (encode c i) = some i := by
  cases i
  case add | sub | sll | slt | sltu | xor | srl | sra | or | and => exact decodeInstr_encodeOp fun _ => rfl
  case addi | slti | sltiu | xori | ori | andi =>
    exact decodeInstr_encodeImm (classify_encodeImm_opImm ..) (fun _ => rfl) wf
  case slli | srli | srai => exact decodeInstr_encodeShift fun _ => rfl
  case lb | lh | lw | lbu | lhu => exact decodeInstr_encodeImm (classify_encodeImm_load ..) (fun _ => rfl) wf
  case sb | sh | sw => exact decodeInstr_encodeS (fun _ => rfl) wf
  case beq | bne | blt | bge | bltu | bgeu => exact decodeInstr_encodeB (fun _ => rfl) wf
  case lui => exact decodeInstr_encodeU (classify_lui ..) (fun _ => rfl) wf
  case auipc => exact decodeInstr_encodeU (classify_auipc ..) (fun _ => rfl) wf
  case jal => exact decodeInstr_encodeJ wf
  case jalr => exact decodeInstr_encodeImm (classify_encodeImm_jalr ..) (fun _ => rfl) wf
  case fence =>
    have table : miscMemTable c (encode c .fence) = .fence := if_pos rfl
    rw [decodeInstr_of_classify (classify_miscMem c (Laws.EncodingGroup.fence c legal)), table]
    rfl
  case fenceI =>
    have ⟨_, _, _, distinct⟩ := legal
    have table : miscMemTable c (encode c .fenceI) = .fenceI := (if_neg distinct.symm).trans (if_pos rfl)
    rw [decodeInstr_of_classify (classify_miscMem c (Laws.EncodingGroup.fenceI c legal)), table]
    rfl
  case ecall =>
    have table : systemTable (encode c .ecall) = .ecall := by rw [encode]; decide
    rw [decodeInstr_of_classify (classify_system c (Laws.EncodingGroup.ecall c legal)), table]
    rfl
  case ebreak =>
    have table : systemTable (encode c .ebreak) = .ebreak := by rw [encode]; decide
    rw [decodeInstr_of_classify (classify_system c (Laws.EncodingGroup.ebreak c legal)), table]
    rfl
  case csrrw | csrrs | csrrc => exact decodeInstr_encodeCsr_reg fun _ e => by rw [systemTable, e]; rfl
  case csrrwi | csrrsi | csrrci => exact decodeInstr_encodeCsr fun _ e => by rw [systemTable, e]; rfl

/-- Settles O2: an encoded word's row is the instruction's own, and its fields and immediate are the operands. -/
theorem decodeOfEncode : Obligations.DecodeOfEncode := fun _ i legal wf => decodeInstr_encode legal i wf

/-! ## Encoding a decoded instruction -/

section
variable {c : Config} {w : Word} {f7 : BitVec 7} {f3 : BitVec 3} {i : Instr} {op : BitVec 7}

theorem encodeR_of_fields (g : groupField w = op) (e7 : funct7Field w = f7) (e3 : funct3Field w = f3) :
    encodeR f7 (rs2Field w) (rs1Field w) f3 (rdField w) op = w := by
  subst g e7 e3
  exact encodeR_fields w

theorem encodeI_of_fields (g : groupField w = op) (e3 : funct3Field w = f3) :
    encodeI (imm12Field w) (rs1Field w) f3 (rdField w) op = w := by
  subst g e3
  exact encodeI_fields w

theorem encodeImm_of_fields (g : groupField w = op) (e3 : funct3Field w = f3) :
    encodeImm op f3 (rdField w).toFin (rs1Field w).toFin (immI w) = w := by
  rw [encodeImm, immI_low]
  exact encodeI_of_fields g e3

theorem encodeShift_of_fields (g : groupField w = 0b0010011#7) (e7 : funct7Field w = f7) (e3 : funct3Field w = f3) :
    encodeShift f7 f3 (rdField w).toFin (rs1Field w).toFin ((immI w).setWidth 5) = w := by
  rw [encodeShift, immI_shamt]
  exact encodeR_of_fields g e7 e3

theorem encodeS_of_fields (g : groupField w = op) (e3 : funct3Field w = f3) :
    encodeS (immS w) (rs2Field w) (rs1Field w) f3 op = w := by
  subst g e3
  exact encodeS_fields w

theorem encodeB_of_fields (g : groupField w = op) (e3 : funct3Field w = f3) :
    encodeB (immB w) (rs2Field w) (rs1Field w) f3 op = w := by
  subst g e3
  exact encodeB_fields w

theorem encodeU_of_fields (g : groupField w = op) : encodeU (immU w) (rdField w) op = w := by
  subst g
  exact encodeU_fields w

theorem encodeJ_of_fields (g : groupField w = op) : encodeJ (immJ w) (rdField w) op = w := by
  subst g
  exact encodeJ_fields w

theorem encode_of_op (g : groupField w = 0b0110011#7)
    (h : (readAs .registerRegister (opTable (funct7Field w) (funct3Field w)) w).toInstr = some i) : encode c i = w := by
  unfold opTable at h
  split at h <;> cases h <;> exact encodeR_of_fields g ‹_› ‹_›

theorem encode_of_opImm (g : groupField w = 0b0010011#7)
    (h : (readAs .immediate (opImmTable (funct7Field w) (funct3Field w)) w).toInstr = some i) : encode c i = w := by
  unfold opImmTable at h
  split at h
  case h_2 e3 =>
    -- funct3 001: funct7 must be that of SLLI
    split at h <;> cases h
    exact encodeShift_of_fields g ‹_› e3
  case h_6 e3 =>
    -- funct3 101: funct7 tells SRLI from SRAI
    split at h
    · cases h
      exact encodeShift_of_fields g ‹_› e3
    · split at h <;> cases h
      exact encodeShift_of_fields g ‹_› e3
  all_goals cases h <;> exact encodeImm_of_fields g ‹_›

theorem encode_of_load (g : groupField w = 0b0000011#7)
    (h : (readAs .load (loadTable (funct3Field w)) w).toInstr = some i) : encode c i = w := by
  unfold loadTable at h
  split at h <;> cases h <;> exact encodeImm_of_fields g ‹_›

theorem encode_of_store (g : groupField w = 0b0100011#7)
    (h : (readAs .store (storeTable (funct3Field w)) w).toInstr = some i) : encode c i = w := by
  unfold storeTable at h
  split at h <;> cases h <;> exact encodeS_of_fields g ‹_›

theorem encode_of_branch (g : groupField w = 0b1100011#7)
    (h : (readAs .branch (branchTable (funct3Field w)) w).toInstr = some i) : encode c i = w := by
  unfold branchTable at h
  split at h <;> cases h <;> exact encodeB_of_fields g ‹_›

theorem encode_of_jalr (g : groupField w = 0b1100111#7)
    (h : (readAs .jump (jalrTable (funct3Field w)) w).toInstr = some i) : encode c i = w := by
  unfold jalrTable at h
  split at h <;> cases h
  exact encodeImm_of_fields g ‹_›

theorem encode_of_miscMem (h : (readAs .fence (miscMemTable c w) w).toInstr = some i) : encode c i = w := by
  unfold miscMemTable at h
  split at h
  · cases h; exact Eq.symm ‹_›
  · split at h <;> cases h
    exact Eq.symm ‹_›

theorem encode_of_system (g : groupField w = 0b1110011#7)
    (h : (readAs .system (systemTable w) w).toInstr = some i) : encode c i = w := by
  unfold systemTable at h
  split at h
  case h_1 =>
    -- funct3 000: two exact words
    split at h
    · cases h; exact Eq.symm ‹_›
    · split at h <;> cases h
      exact Eq.symm ‹_›
  all_goals cases h <;> exact encodeI_of_fields g ‹_›

theorem encode_of_decodeInstr (h : decodeInstr c w = some i) : encode c i = w := by
  have read {k : Category} {m : Mnemonic} (row : classify c w = inCategory k m) : (readAs k m w).toInstr = some i :=
    (decodeInstr_of_classify row).symm.trans h
  generalize row : classify c w = r at read
  unfold classify at row
  split at row <;> subst row
  next g => exact encode_of_op g (read rfl)
  next g => exact encode_of_opImm g (read rfl)
  next g => exact encode_of_load g (read rfl)
  next g => exact encode_of_store g (read rfl)
  next g => exact encode_of_branch g (read rfl)
  next g => cases read (k := .upperImmediate) (m := .lui) rfl; exact encodeU_of_fields g
  next g => cases read (k := .upperImmediate) (m := .auipc) rfl; exact encodeU_of_fields g
  next g => cases read (k := .jump) (m := .jal) rfl; exact encodeJ_of_fields g
  next g => exact encode_of_jalr g (read rfl)
  next => exact encode_of_miscMem (read rfl)
  next g => exact encode_of_system g (read rfl)
  next => cases read (k := .illegal) (m := .illegal) rfl

end

/-- Settles O3: a word is put together again from the fields its row reads (`encode_of_decodeInstr`), and what is
decoded is well formed. -/
theorem encodeOfDecode : Obligations.EncodeOfDecode := fun _ _ _ h =>
  ⟨encode_of_decodeInstr h, decodeInstr_wellFormed h⟩

end Sys2Proof

namespace Sys2Proof.Machine

/-! ## Shifts as arithmetic (R14, R324) -/

section
variable (v b : Word)

theorem shiftLeft_eq : shiftLeft v b = BitVec.ofNat 32 (v.toNat * 2 ^ shiftAmount b) := by
  apply BitVec.eq_of_toNat_eq
  rw [shiftLeft, BitVec.toNat_shiftLeft, BitVec.toNat_ofNat, Nat.shiftLeft_eq]

theorem shiftRightLogical_eq : shiftRightLogical v b = BitVec.ofNat 32 (v.toNat / 2 ^ shiftAmount b) := by
  rw [shiftRightLogical, ← Nat.shiftRight_eq_div_pow, ← BitVec.toNat_ushiftRight, BitVec.ofNat_toNat,
    BitVec.setWidth_eq]

theorem shiftRightArithmetic_eq :
    shiftRightArithmetic v b = BitVec.ofInt 32 (v.toInt / 2 ^ shiftAmount b) := by
  have floor : v.toInt / 2 ^ shiftAmount b = (v.sshiftRight (shiftAmount b)).toInt := by
    simp [BitVec.toInt_sshiftRight, Int.shiftRight_eq_div_pow]
  rw [shiftRightArithmetic, floor, BitVec.ofInt_toInt]

end

/-! ## The immediate shifts (R506 to R508) -/

theorem shiftAmount_shiftOperand (shamt : BitVec 5) : shiftAmount (shiftOperand shamt) = shamt.toNat := by
  simp [shiftAmount, shiftOperand]

section
variable (f7 : BitVec 7) (f3 : BitVec 3) (rd rs1 : RegIdx) (shamt : BitVec 5)

theorem encodeShift_mask :
    encodeShift f7 f3 rd rs1 shamt &&& 0xFE00707F = encodeR f7 0 0 f3 0 0b0010011#7 :=
  encodeR_mask ..

theorem immI_shamt_encodeShift : (immI (encodeShift f7 f3 rd rs1 shamt)).setWidth 5 = shamt := by
  rw [immI_shamt]
  exact rs2Field_encodeR ..

end

/-- Settles O41: the word is a shift word (`encodeShift`), and each shift is the arithmetic of R14 on the shamt. -/
theorem immediateShiftResults : Obligations.ImmediateShiftResults := by
  intro rd rs1 shamt
  refine ⟨⟨fun _ => encodeShift_mask .., fun _ => immI_shamt_encodeShift .., ?slli⟩,
    ⟨fun _ => encodeShift_mask .., fun _ => immI_shamt_encodeShift .., ?srli⟩,
    ⟨fun _ => encodeShift_mask .., fun _ => immI_shamt_encodeShift .., ?srai⟩⟩
  all_goals rw [← shiftAmount_shiftOperand shamt]
  case slli => exact computesInto_of_writeResult (fun _ => rfl) fun _ => shiftLeft_eq ..
  case srli => exact computesInto_of_writeResult (fun _ => rfl) fun _ => shiftRightLogical_eq ..
  case srai => exact computesInto_of_writeResult (fun _ => rfl) fun _ => shiftRightArithmetic_eq ..

end Sys2Proof.Machine
end

section
/-! Proofs of the pipeline family: what is fetched (R401), the table of R410 as the decoder meets it (R412), the dispatch
of a record (R411, R422), and the steps that end a run (R423, R425). -/

namespace Sys2Proof

/-! ## Every row of the opcode tables is in the table of R410 -/

/-- The table of R410 lists a category and a mnemonic exactly where the decoder does not call them illegal. -/
def RowIsListed (k : Category) (m : Mnemonic) : Prop :=
  ∀ w : Word, (readAs k m w).toInstr.isSome = decide ((inCategory k m).1 ≠ .illegal)

section
variable (f7 : BitVec 7) (f3 : BitVec 3) (c : Config) (w : Word)

theorem opTable_listed : RowIsListed .registerRegister (opTable f7 f3) := by
  unfold opTable
  split <;> exact fun _ => rfl

theorem opImmTable_listed : RowIsListed .immediate (opImmTable f7 f3) := by
  unfold opImmTable
  repeat' split
  all_goals exact fun _ => rfl

theorem loadTable_listed : RowIsListed .load (loadTable f3) := by
  unfold loadTable
  split <;> exact fun _ => rfl

theorem storeTable_listed : RowIsListed .store (storeTable f3) := by
  unfold storeTable
  split <;> exact fun _ => rfl

theorem branchTable_listed : RowIsListed .branch (branchTable f3) := by
  unfold branchTable
  split <;> exact fun _ => rfl

theorem jalrTable_listed : RowIsListed .jump (jalrTable f3) := by
  unfold jalrTable
  split <;> exact fun _ => rfl

theorem miscMemTable_listed : RowIsListed .fence (miscMemTable c w) := by
  unfold miscMemTable
  repeat' split
  all_goals exact fun _ => rfl

theorem systemTable_listed : RowIsListed .system (systemTable w) := by
  unfold systemTable
  repeat' split
  all_goals exact fun _ => rfl

/-- The row a word is classified under is listed in the table of R410, or is the illegal row. -/
theorem classify_listed : ∃ k m, classify c w = inCategory k m ∧ RowIsListed k m := by
  unfold classify
  split
  next => exact ⟨_, _, rfl, opTable_listed _ _⟩
  next => exact ⟨_, _, rfl, opImmTable_listed _ _⟩
  next => exact ⟨_, _, rfl, loadTable_listed _⟩
  next => exact ⟨_, _, rfl, storeTable_listed _⟩
  next => exact ⟨_, _, rfl, branchTable_listed _⟩
  next => exact ⟨.upperImmediate, .lui, rfl, fun _ => rfl⟩
  next => exact ⟨.upperImmediate, .auipc, rfl, fun _ => rfl⟩
  next => exact ⟨.jump, .jal, rfl, fun _ => rfl⟩
  next => exact ⟨_, _, rfl, jalrTable_listed _⟩
  next => exact ⟨_, _, rfl, miscMemTable_listed _ _⟩
  next => exact ⟨_, _, rfl, systemTable_listed _⟩
  next => exact ⟨.illegal, .illegal, rfl, fun _ => rfl⟩

/-- A word that is not illegal is an instruction, and no other word is (R412). -/
theorem category_ne_illegal_iff : (decode c w).category ≠ .illegal ↔ ∃ i, decodeInstr c w = some i := by
  obtain ⟨k, m, row, listed⟩ := classify_listed c w
  rw [← Option.isSome_iff_exists, decodeInstr_of_classify row, listed w, decide_eq_true_iff, ← row]
  rfl

end

end Sys2Proof

namespace Sys2Proof.Machine

/-! ## The dispatch of a record (R411, R412) -/

theorem execute_of_illegal {r : Record} (illegal : r.category = .illegal) (s : State) :
    execute r s = .next (FaultedFrom s (.illegalInstruction r.group)) :=
  if_pos illegal

theorem execute_of_decodeInstr {c : Config} {w : Word} {i : Instr} (decoded : decodeInstr c w = some i) (s : State) :
    execute (decode c w) s = exec i s := by
  have legal : (decode c w).category ≠ .illegal := (category_ne_illegal_iff c w).mpr ⟨i, decoded⟩
  rw [decodeInstr] at decoded
  rw [execute, if_neg legal, decoded]

/-- Everything the execution of a decoded word can be: the meaning of its instruction, or the error of an illegal word.
The Internal branch of the dispatch is not reached. -/
theorem execute_decode_cases (c : Config) (w : Word) (s : State) :
    (∃ i, decodeInstr c w = some i ∧ execute (decode c w) s = exec i s) ∨
    execute (decode c w) s = .next (FaultedFrom s (.illegalInstruction (groupField w))) := by
  by_cases illegal : (decode c w).category = .illegal
  · exact .inr (execute_of_illegal illegal s)
  · obtain ⟨i, decoded⟩ := (category_ne_illegal_iff c w).mp illegal
    exact .inl ⟨i, decoded, execute_of_decodeInstr decoded s⟩

/-! ## What an instruction does to the run status -/

/-- The three ways an instruction ends (R420, R423, R425): it leaves the run status as it was; it raises an error, never
Internal; or it is ECALL with the exit selector. `exec_cases` leaves the error open; this rules Internal out. -/
inductive Ending (s : State) (i : Instr) : Result → Prop where
  | goesOn {t : State} (status : t.status = s.status) : Ending s i (.next t)
  | fails {e : ErrorKind} (named : e ≠ .internal) : Ending s i (.next (FaultedFrom s e))
  | exits (call : i = .ecall) (selected : syscallOf s.cfg (s.readReg regA7) = some .exit) :
      Ending s i (.next { s with status := .exited (s.readReg regA0) })

section
variable (s : State) (i : Instr)

theorem writeResult_ending (rd : RegIdx) (v : Word) : Ending s i (writeResult rd v s) :=
  .goesOn (writeReg_status s rd v)

theorem loadInto_ending (n : Nat) (ext : Word → Word) (rd rs1 : RegIdx) (imm : Word) :
    Ending s i (loadInto n ext rd rs1 imm s) := by
  by_cases within : (s.readReg rs1 + imm).toNat + n ≤ s.mem.size
  · rw [loadInto_ok n ext rd rs1 imm s within]; exact writeResult_ending ..
  · rw [loadInto_error n ext rd rs1 imm s (by omega)]; exact .fails nofun

theorem storeFrom_ending (n : Nat) (rs1 rs2 : RegIdx) (imm : Word) : Ending s i (storeFrom n rs1 rs2 imm s) := by
  by_cases within : (s.readReg rs1 + imm).toNat + n ≤ s.mem.size
  · rw [storeFrom_ok n rs1 rs2 imm s within]; exact .goesOn rfl
  · rw [storeFrom_error n rs1 rs2 imm s (by omega)]; exact .fails nofun

theorem branchIf_ending (taken : Bool) (imm : Word) : Ending s i (branchIf taken imm s) := by
  rw [branchIf_eq]; exact .goesOn rfl

theorem sbrkCall_ending : Ending s i (sbrkCall s) := by
  rw [sbrkCall_eq]
  split
  · exact writeResult_ending ..
  · exact .goesOn rfl

theorem readWordCall_ending : Ending s i (readWordCall s) := by
  rcases readWordCall_cases s with ⟨v, o, -, h⟩ | ⟨o, -, h⟩ <;> rw [h]
  · exact .goesOn (writeReg_status { s with oracle := o } regA0 v)
  · exact .fails nofun

theorem rawPointer_ne_internal (addr : Word) : s.rawPointer addr ≠ .error .internal := by
  intro h
  obtain ⟨-, kind⟩ := (rawPointer_error_iff s addr .internal).mp h
  cases kind

theorem readStringCall_ending : Ending s i (readStringCall s) := by
  unfold readStringCall
  split
  · rename_i e h
    exact .fails fun internal => rawPointer_ne_internal s _ (internal ▸ h)
  · split
    · exact .fails nofun
    · unfold storeLine
      split
      · exact .fails nofun
      · exact .goesOn rfl

theorem writeStringCall_ending (stream : Stream) : Ending s i (writeStringCall stream s) := by
  unfold writeStringCall
  split
  · rename_i e h
    exact .fails fun internal => rawPointer_ne_internal s _ (internal ▸ h)
  · split
    · exact .fails nofun
    · exact .goesOn rfl

theorem execEcall_ending : Ending s .ecall (execEcall s) := by
  unfold execEcall
  split
  · exact .fails nofun
  · rename_i k selected
    cases k with
    | sbrk => exact sbrkCall_ending ..
    | readWord => exact readWordCall_ending ..
    | readString => exact readStringCall_ending ..
    | writeWord | writeWordErr => exact .goesOn rfl
    | writeString | writeStringErr => exact writeStringCall_ending ..
    | exit => exact .exits rfl selected

theorem exec_ending : Ending s i (exec i s) := by
  cases i
  case add | sub | sll | slt | sltu | xor | srl | sra | or | and | addi | slti | sltiu | xori | ori | andi | slli | srli
      | srai | lui | auipc => exact writeResult_ending ..
  case lb | lh | lw | lbu | lhu => exact loadInto_ending ..
  case sb | sh | sw => exact storeFrom_ending ..
  case beq | bne | blt | bge | bltu | bgeu => exact branchIf_ending ..
  case jal | jalr => exact .goesOn (writeReg_status ..)
  case fence | fenceI | ebreak | csrrw | csrrs | csrrc | csrrwi | csrrsi | csrrci => exact .goesOn rfl
  case ecall => exact execEcall_ending s

end

/-- From a running state, the execution of a decoded word that ends the run raises an error other than Internal, or is
ECALL's exit. -/
theorem execute_decode_ended_cases {c : Config} {w : Word} {s t : State} (running : s.status = .running)
    (h : execute (decode c w) s = .next t) (ended : t.status ≠ .running) :
    (∃ e, e ≠ .internal ∧ t = FaultedFrom s e) ∨
    (decodeInstr c w = some .ecall ∧ syscallOf s.cfg (s.readReg regA7) = some .exit ∧
      t = { s with status := .exited (s.readReg regA0) }) := by
  rcases execute_decode_cases c w s with ⟨i, decoded, h'⟩ | h'
  · have ending : Ending s i (.next t) := h ▸ h'.symm ▸ exec_ending s i
    cases ending with
    | goesOn status => exact absurd (status.trans running) ended
    | fails named => exact .inl ⟨_, named, rfl⟩
    | exits call selected => exact .inr ⟨call ▸ decoded, selected, rfl⟩
  · cases h'.symm.trans h
    exact .inl ⟨.illegalInstruction (groupField w), nofun, rfl⟩

/-- Settles O7: every row the decoder gives is in the table of R410 (`category_ne_illegal_iff`), and an instruction raises
no Internal (`execute_decode_ended_cases`). -/
theorem decodeNeverReachesInternal : Obligations.DecodeNeverReachesInternal := by
  refine fun c w => ⟨category_ne_illegal_iff c w, fun s t running h internal => ?_⟩
  rcases execute_decode_ended_cases running h (by rw [internal]; nofun) with ⟨e, named, rfl⟩ | ⟨-, -, rfl⟩
  · cases internal; exact named rfl
  · cases internal

/-! ## What follows a dispatch (R422) -/

theorem afterDispatch_next (t : State) :
    afterDispatch (.next t) = .next (if t.status = .running then t.restoreX0 else t) := by
  simp only [afterDispatch]
  split <;> rfl

/-- A step whose dispatch ends the run ends with the dispatch. -/
theorem afterDispatch_eq_of_ended {r : Result} {t : State} (h : afterDispatch r = .next t)
    (ended : t.status ≠ .running) : r = .next t := by
  cases r with
  | next u =>
    rw [afterDispatch_next] at h
    split at h
    · rename_i running; cases h; exact absurd running ended
    · exact h
  | fault f => exact h
  | refused f => exact h

/-! ## The step by its fetch (R400, R401) -/

section
variable {s : State} (running : s.status = .running)
include running

theorem step_of_fetch {w : Word} (fetched : s.memRead s.pc 4 = .ok w) :
    step s = afterDispatch (execute (decode s.cfg w) s) := by
  rcases step_cases s running with ⟨e, failed, -⟩ | ⟨v, fetched', h⟩
  · cases failed.symm.trans fetched
  · cases fetched'.symm.trans fetched; exact h

theorem step_of_fetch_error {e : ErrorKind} (failed : s.memRead s.pc 4 = .error e) :
    step s = .next (FaultedFrom s e) := by
  rcases step_cases s running with ⟨e', failed', h⟩ | ⟨v, fetched, -⟩
  · cases failed'.symm.trans failed; exact h
  · cases fetched.symm.trans failed

end

/-- Settles O19: the step is the dispatch (`step_of_fetch`), which is the decoded instruction's meaning, and what follows
it (`afterDispatch_next`). -/
theorem stepRunsTheDecodedInstruction : Obligations.StepRunsTheDecodedInstruction := by
  intro s w i running fetched decoded t meaning
  rw [step_of_fetch running fetched, execute_of_decodeInstr decoded, meaning, afterDispatch_next]

/-- Settles O20: the fetch is a checked read of four bytes at the pc. -/
theorem fetchOutOfBoundsFaults : Obligations.FetchOutOfBoundsFaults := fun _ running past =>
  step_of_fetch_error running (memRead_of_past_end past)

/-- Settles O21: an illegal record is dispatched to the error (`execute_of_illegal`), after which register 0 is not
forced. -/
theorem illegalWordFaults : Obligations.IllegalWordFaults := by
  refine fun s => ⟨fun r illegal => execute_of_illegal illegal s, fun w running fetched illegal => ?_⟩
  rw [step_of_fetch running fetched, execute_of_illegal illegal, afterDispatch_next]
  rfl

/-! ## The steps that end a run (R423, R425) -/

/-- Everything a step that ends the run can be: an error that changes the status alone, or ECALL's exit. -/
theorem step_ended_cases {s t : State} (h : step s = .next t) (ended : t.status ≠ .running) :
    (∃ e, t = FaultedFrom s e) ∨
    (s.memRead s.pc 4 = .ok 0x00000073 ∧ syscallOf s.cfg (s.readReg regA7) = some .exit ∧
      t = { s with status := .exited (s.readReg regA0) }) := by
  by_cases running : s.status = .running
  · rcases step_cases s running with ⟨e, -, h'⟩ | ⟨w, fetched, h'⟩
    · cases h'.symm.trans h
      exact .inl ⟨e, rfl⟩
    · have dispatched := afterDispatch_eq_of_ended (h'.symm.trans h) ended
      rcases execute_decode_ended_cases running dispatched ended with ⟨e, -, state⟩ | ⟨decoded, selected, state⟩
      · exact .inl ⟨e, state⟩
      · have word : 0x00000073 = w := encode_of_decodeInstr decoded
        exact .inr ⟨word ▸ fetched, selected, state⟩
  · cases (step_ended s running).symm.trans h

/-- Settles O23: of the steps that end a run (`step_ended_cases`), those that fail change the status alone. -/
theorem failedStepChangesOnlyStatus : Obligations.FailedStepChangesOnlyStatus := by
  intro s t e h failed
  rcases step_ended_cases h (by rw [failed]; nofun) with ⟨e', rfl⟩ | ⟨-, -, rfl⟩
  · cases failed; rfl
  · cases failed

/-- Settles O24: of the steps that end a run (`step_ended_cases`), the only one that exits is ECALL's exit. -/
theorem exitOnlyByExitCall : Obligations.ExitOnlyByExitCall := by
  intro s t v h exited
  rcases step_ended_cases h (by rw [exited]; nofun) with ⟨e, rfl⟩ | ⟨fetched, selected, rfl⟩
  · cases exited
  · cases exited; exact ⟨fetched, selected, rfl, rfl⟩

/-! ## The word placed for the next step -/

/-- Placing a word is a checked write of it at the pc of a running state, which is the given state made running where the
pc's four bytes lie in memory. -/
theorem placeWord_is_memWrite (s : State) (w : Word) :
    ∃ u : State, u.memWrite u.pc 4 w = .ok (placeWord s w) ∧ u.status = .running ∧
      (s.pc.toNat + 4 ≤ s.mem.size → u = { s with status := .running }) := by
  by_cases within : s.pc.toNat + 4 ≤ s.mem.size
  · refine ⟨{ s with status := .running }, (memWrite_ok_iff ..).mpr ⟨within, ?_⟩, rfl, fun _ => rfl⟩
    simp [placeWord, Memory.inBounds, within]
  · refine ⟨{ s with pc := 0, mem := { s.mem with size := max s.mem.size 4 }, status := .running },
      (memWrite_ok_iff ..).mpr ⟨le_max_right _ _, ?_⟩, rfl, fun within' => absurd within' within⟩
    simp [placeWord, Memory.inBounds, within]

/-- A number below 2^32 is the 32-bit table word of itself. -/
theorem withFetchWord_eq (s : State) {w : Nat} (bound : w < 2 ^ 32) :
    s.withFetchWord 32 w = placeWord s (BitVec.ofNat 32 w) := by
  rw [State.withFetchWord, tableWord, Nat.mod_eq_of_lt bound]

/-- Settles O30: the word is placed by a write at the pc (`placeWord_is_memWrite`), which the fetch sees
(`fetchSeesEarlierStore`) and which changes no byte outside it. -/
theorem placedWordIsFetched : Obligations.PlacedWordIsFetched := by
  intro s w bound
  rw [withFetchWord_eq s bound]
  obtain ⟨u, written, running, same⟩ := placeWord_is_memWrite s (BitVec.ofNat 32 w)
  refine ⟨fetchSeesEarlierStore u _ _ written, ?_, fun within => ?_⟩
  · obtain ⟨-, placed⟩ := (memWrite_ok_iff ..).mp written
    rw [placed]; exact running
  · cases same within
    obtain ⟨-, placed⟩ := (memWrite_ok_iff ..).mp written
    rw [placed]
    exact ⟨rfl, fun _ => rfl, withMem_sameMemoryOutside s s.pc.toNat 4 _⟩

end Sys2Proof.Machine
end

section
/-! Proofs of the register-register family: the shifts (R452, R456, R457), the sum and the difference (R450, R451), the
comparisons (R453, R454) and the bitwise operations (R455, R458, R459). -/

namespace Sys2Proof.Machine

/-- The word of a register-register instruction under its row's mask (R331). -/
theorem encodeOp_mask (f7 : BitVec 7) (f3 : BitVec 3) (rd rs1 rs2 : RegIdx) :
    encodeOp f7 f3 rd rs1 rs2 &&& 0xFE00707F = encodeR f7 0 0 f3 0 0b0110011#7 :=
  encodeR_mask ..

/-! ## The results as arithmetic (R14) -/

section
variable (a b : Word)

theorem shiftAmount_eq_mod : shiftAmount b = b.toNat % 32 :=
  BitVec.toNat_setWidth 5 b

/-- The difference of two words is that of their unsigned numbers, taken as integers and then modulo 2^32. -/
theorem sub_eq_ofInt : a - b = BitVec.ofInt 32 (a.toNat - b.toNat : Int) := by
  have word (w : Word) : BitVec.ofInt 32 w.toNat = w := by
    rw [BitVec.ofInt_natCast, BitVec.ofNat_toNat, BitVec.setWidth_eq]
  refine sub_eq_of_eq_add ?_
  calc a = BitVec.ofInt 32 (a.toNat - b.toNat + b.toNat) := by rw [sub_add_cancel, word]
    _ = BitVec.ofInt 32 (a.toNat - b.toNat) + b := by rw [BitVec.ofInt_add, word]

theorem comparisonWord_ltSigned : comparisonWord (ltSigned a b) = if a.toInt < b.toInt then 1 else 0 := by
  simp only [comparisonWord, ltSigned, decide_eq_true_eq]

theorem comparisonWord_ltUnsigned : comparisonWord (ltUnsigned a b) = if a.toNat < b.toNat then 1 else 0 := by
  simp only [comparisonWord, ltUnsigned, decide_eq_true_eq]

end

/-! ## The instructions -/

/-- Settles O36: each shift is the arithmetic of R14 (`shiftLeft_eq` and its like) on the low 5 bits of `x[rs2]`. -/
theorem shiftResults : Obligations.ShiftResults := by
  intro rd rs1 rs2
  refine ⟨⟨fun _ => encodeOp_mask .., ?sll⟩, ⟨fun _ => encodeOp_mask .., ?srl⟩, ⟨fun _ => encodeOp_mask .., ?sra⟩⟩
  all_goals simp only [← shiftAmount_eq_mod]
  case sll => exact computesInto_of_writeResult (fun _ => rfl) fun _ => shiftLeft_eq ..
  case srl => exact computesInto_of_writeResult (fun _ => rfl) fun _ => shiftRightLogical_eq ..
  case sra => exact computesInto_of_writeResult (fun _ => rfl) fun _ => shiftRightArithmetic_eq ..

/-- Settles O35: the sum of words is that of their numbers modulo 2^32 by definition, the difference by `sub_eq_ofInt`. -/
theorem addSubResults : Obligations.AddSubResults := by
  intro rd rs1 rs2
  refine ⟨⟨fun _ => encodeOp_mask .., ?add⟩, ⟨fun _ => encodeOp_mask .., ?sub⟩⟩
  case add => exact computesInto_of_writeResult (fun _ => rfl) fun _ => BitVec.add_def ..
  case sub => exact computesInto_of_writeResult (fun _ => rfl) fun _ => sub_eq_ofInt ..

/-- Settles O37: a comparison's word is 1 or 0 by the order of the signed numbers, or of the unsigned ones. -/
theorem setLessThanResults : Obligations.SetLessThanResults := by
  intro rd rs1 rs2
  refine ⟨⟨fun _ => encodeOp_mask .., ?slt⟩, ⟨fun _ => encodeOp_mask .., ?sltu⟩⟩
  case slt => exact computesInto_of_writeResult (fun _ => rfl) fun _ => comparisonWord_ltSigned ..
  case sltu => exact computesInto_of_writeResult (fun _ => rfl) fun _ => comparisonWord_ltUnsigned ..

/-- Settles O38: the value each of the three writes to rd is the bitwise result itself. -/
theorem logicResults : Obligations.LogicResults := by
  intro rd rs1 rs2
  refine ⟨⟨fun _ => encodeOp_mask .., ?xor⟩, ⟨fun _ => encodeOp_mask .., ?or⟩, ⟨fun _ => encodeOp_mask .., ?and⟩⟩
  case xor | or | and => exact computesInto_of_writeResult (fun _ => rfl) fun _ => rfl

end Sys2Proof.Machine
end

section
/-! Proofs of the immediate family: the sum (R500), the comparisons (R501, R502) and the bitwise operations (R503, R504,
R505) with an I immediate. The shifts of the family (R506 to R508) stand above. -/

namespace Sys2Proof.Machine

/-- An I-format word under its row's mask keeps its funct3 and its opcode, and no operand. -/
theorem encodeImm_mask (op : BitVec 7) (f3 : BitVec 3) (rd rs1 : RegIdx) (imm : Word) :
    encodeImm op f3 rd rs1 imm &&& 0x0000707F = encodeI 0 0 f3 0 op :=
  encodeI_mask ..

/-- The sum of two words is that of the one's unsigned and the other's signed number, modulo 2^32: the two readings of a
word differ by a multiple of 2^32. -/
theorem add_eq_ofInt (a b : Word) : a + b = BitVec.ofInt 32 (a.toNat + b.toInt) := by
  rw [BitVec.ofInt_add, BitVec.ofInt_natCast, BitVec.ofNat_toNat, BitVec.setWidth_eq, BitVec.ofInt_toInt]

/-- Settles O39: the word is an I-format word (`encodeImm`), the sum is `add_eq_ofInt`, and a comparison's word is 1 or 0 by
the order of the signed numbers, or of the unsigned ones. -/
theorem immediateArithmeticResults : Obligations.ImmediateArithmeticResults := by
  intro rd rs1 imm
  refine ⟨⟨fun _ => encodeImm_mask .., fun fits _ => immI_encodeImm _ _ rd rs1 fits, ?addi⟩,
    ⟨fun _ => encodeImm_mask .., fun fits _ => immI_encodeImm _ _ rd rs1 fits, ?slti⟩,
    ⟨fun _ => encodeImm_mask .., fun fits _ => immI_encodeImm _ _ rd rs1 fits, ?sltiu⟩⟩
  case addi => exact computesInto_of_writeResult (fun _ => rfl) fun _ => add_eq_ofInt ..
  case slti => exact computesInto_of_writeResult (fun _ => rfl) fun _ => comparisonWord_ltSigned ..
  case sltiu => exact computesInto_of_writeResult (fun _ => rfl) fun _ => comparisonWord_ltUnsigned ..

/-- Settles O40: the word is an I-format word, and the value written to rd is the bitwise result itself. -/
theorem immediateLogicResults : Obligations.ImmediateLogicResults := by
  intro rd rs1 imm
  refine ⟨⟨fun _ => encodeImm_mask .., fun fits _ => immI_encodeImm _ _ rd rs1 fits, ?xori⟩,
    ⟨fun _ => encodeImm_mask .., fun fits _ => immI_encodeImm _ _ rd rs1 fits, ?ori⟩,
    ⟨fun _ => encodeImm_mask .., fun fits _ => immI_encodeImm _ _ rd rs1 fits, ?andi⟩⟩
  case xori | ori | andi => exact computesInto_of_writeResult (fun _ => rfl) fun _ => rfl

end Sys2Proof.Machine
end

section
/-! Proofs of the load family: the signed loads (R550, R551, R552) and the unsigned loads (R553, R554). -/

namespace Sys2Proof.Machine

/-! ## The extensions of a loaded value as numbers (R15) -/

/-- `zext_N` changes no number of N bits. -/
theorem zext_of_lt {n : Nat} {v : Word} (narrow : v.toNat < 2 ^ n) : zext n v = v := by
  apply BitVec.eq_of_toNat_eq
  rw [zext, BitVec.toNat_setWidth, BitVec.toNat_setWidth, Nat.mod_eq_of_lt narrow, Nat.mod_eq_of_lt v.isLt]

/-- `sext_N` makes of a number of N bits the word of its signed reading: from 2^(N-1) up, bit N-1 is 1 and the number stands
for itself less 2^N. -/
theorem sext_eq_signedWord {n : Nat} {v : Word} (n_pos : 0 < n) (n_le : n ≤ 32) (narrow : v.toNat < 2 ^ n) :
    sext n v = signedWord n v.toNat := by
  obtain ⟨m, rfl⟩ : ∃ m, n = m + 1 := ⟨n - 1, by omega⟩
  rw [← BitVec.ofInt_toInt (x := sext (m + 1) v), signedWord, Nat.add_sub_cancel]
  have narrow : v.toNat < 2 ^ m * 2 := narrow
  by_cases high : 2 ^ m ≤ v.toNat
  · rw [if_pos high, sext_toInt_of_sign (sign := 1) (rest := v.toNat - 2 ^ m) n_le (by omega) le_rfl (by omega)]
    congr 1
    push_cast [high]
    ring
  · rw [if_neg high, sext_toInt_of_sign (sign := 0) (rest := v.toNat) n_le (by omega) (by decide) (by omega)]
    congr 1
    simp

/-! ## What a load does -/

/-- The word of a load: the LOAD opcode and the funct3 of its row, and the operand where the I format holds it. -/
theorem load_encoding {i : RegIdx → RegIdx → Word → Instr} (f3 : BitVec 3)
    (word : ∀ c rd rs1 imm, encode c (i rd rs1 imm) = encodeImm 0b0000011#7 f3 rd rs1 imm)
    (range : ∀ rd rs1 imm, (i rd rs1 imm).wellFormed = fitsI imm) (rd rs1 : RegIdx) (imm : Word) :
    Matches (i rd rs1 imm) 0x0000707F (encodeI 0 0 f3 0 0b0000011#7) ∧ CarriesImmediate (i rd rs1 imm) .i imm := by
  refine ⟨fun c => ?mask, fun fits c => ?operand⟩
  case mask => rw [word, encodeImm_mask]
  case operand => rw [word]; exact immI_encodeImm _ f3 rd rs1 (range rd rs1 imm ▸ fits)

/-- Everything an instruction does from a state in which it writes a value to rd. -/
theorem completes_of_writeResult {i : Instr} {rd : RegIdx} {v : Word} {s : State}
    (meaning : exec i s = writeResult rd v s) :
    Completes i s (fun t => RegsAfterWrite rd v s t ∧ t.pc = s.pc + 4 ∧ SameMemory s t ∧ SameRest s t) :=
  ⟨_, meaning, writeReg_regsAfterWrite s rd v, writeResult_pc rfl, writeReg_sameMemory s rd v, writeReg_sameRest s rd v⟩

/-- A load of up to four bytes whose extension is given on numbers of that many bytes: the bytes read are such a number
(`leWord_readBytes_lt`), and it is their sum (`leWord_readBytes_toNat`). -/
theorem loadsAs_of_loadInto {i : RegIdx → RegIdx → Word → Instr} {n : Nat} {extend : Word → Word} {value : Nat → Word}
    (width : n ≤ 4) (meaning : ∀ rd rs1 imm s, exec (i rd rs1 imm) s = loadInto n extend rd rs1 imm s)
    (extended : ∀ v : Word, v.toNat < 2 ^ (8 * n) → extend v = value v.toNat) : LoadsAs i n value := by
  refine fun s rd rs1 imm => ⟨fun within => completes_of_writeResult ?_, fun past => ?_⟩
  · rw [meaning, loadInto_ok n extend rd rs1 imm s within, extended _ (leWord_readBytes_lt s.mem _ width),
      leWord_readBytes_toNat s.mem _ n width]
  · rw [meaning, loadInto_error n extend rd rs1 imm s past]

/-- A load whose extension keeps every number of as many bytes as it reads. -/
theorem loadsAs_ofNat {i : RegIdx → RegIdx → Word → Instr} {n : Nat} {extend : Word → Word} (width : n ≤ 4)
    (meaning : ∀ rd rs1 imm s, exec (i rd rs1 imm) s = loadInto n extend rd rs1 imm s)
    (kept : ∀ v : Word, v.toNat < 2 ^ (8 * n) → extend v = v) : LoadsAs i n (BitVec.ofNat 32) :=
  loadsAs_of_loadInto width meaning fun v narrow => by rw [kept v narrow, BitVec.ofNat_toNat, BitVec.setWidth_eq]

/-! ## The instructions -/

/-- Settles O42: each is a load (`loadsAs_of_loadInto`) whose extension is the signed reading of the bytes' sum
(`sext_eq_signedWord`); a word of four bytes is not extended. -/
theorem signedLoadResults : Obligations.SignedLoadResults := by
  refine ⟨load_encoding 0b000#3 (fun _ _ _ _ => rfl) fun _ _ _ => rfl, ?lb,
    load_encoding 0b001#3 (fun _ _ _ _ => rfl) fun _ _ _ => rfl, ?lh,
    load_encoding 0b010#3 (fun _ _ _ _ => rfl) fun _ _ _ => rfl, ?lw⟩
  case lb | lh =>
    exact loadsAs_of_loadInto (by decide) (fun _ _ _ _ => rfl) fun _ => sext_eq_signedWord (by decide) (by decide)
  case lw => exact loadsAs_ofNat (by decide) (fun _ _ _ _ => rfl) fun _ _ => rfl

/-- Settles O43: each is a load (`loadsAs_ofNat`) whose extension keeps the bytes' sum (`zext_of_lt`). -/
theorem unsignedLoadResults : Obligations.UnsignedLoadResults := by
  refine ⟨load_encoding 0b100#3 (fun _ _ _ _ => rfl) fun _ _ _ => rfl, ?lbu,
    load_encoding 0b101#3 (fun _ _ _ _ => rfl) fun _ _ _ => rfl, ?lhu⟩
  case lbu | lhu => exact loadsAs_ofNat (by decide) (fun _ _ _ _ => rfl) fun _ => zext_of_lt

end Sys2Proof.Machine
end

section
/-! Proofs of the store family: the stores (R600, R601, R602). -/

namespace Sys2Proof.Machine

/-! ## What a store does -/

/-- Byte k of a word is its digit of weight 256^k. -/
theorem extractLsb'_byte_toNat (v : Word) (k : Nat) :
    (v.extractLsb' (8 * k) 8).toNat = v.toNat / 256 ^ k % 256 := by
  rw [BitVec.extractLsb'_toNat, Nat.shiftRight_eq_div_pow, Nat.pow_mul]

/-- The word of a store: the STORE opcode and the funct3 of its row, and the operand where the S format holds it. -/
theorem store_encoding {i : RegIdx → RegIdx → Word → Instr} (f3 : BitVec 3)
    (word : ∀ c rs1 rs2 imm, encode c (i rs1 rs2 imm) = encodeS imm (regBits rs2) (regBits rs1) f3 0b0100011#7)
    (range : ∀ rs1 rs2 imm, (i rs1 rs2 imm).wellFormed = fitsI imm) (rs1 rs2 : RegIdx) (imm : Word) :
    Matches (i rs1 rs2 imm) 0x0000707F (encodeI 0 0 f3 0 0b0100011#7) ∧ CarriesImmediate (i rs1 rs2 imm) .s imm := by
  refine ⟨fun c => ?mask, fun fits c => ?operand⟩
  case mask => rw [word]; exact encodeS_mask ..
  case operand => rw [word]; exact immS_encodeS_of_fits _ _ f3 _ (range rs1 rs2 imm ▸ fits)

/-- A store within memory puts the low bytes of `x[rs2]` at the effective address (`readByte_writeBytes_leBytes`) and
leaves every other byte (`withMem_sameMemoryOutside`); past the end it raises. -/
theorem storesAs_of_storeFrom {i : RegIdx → RegIdx → Word → Instr} {n : Nat}
    (meaning : ∀ rs1 rs2 imm s, exec (i rs1 rs2 imm) s = storeFrom n rs1 rs2 imm s) : StoresAs i n := by
  refine fun s rs1 rs2 imm => ⟨fun within => ?completes, fun past => ?fails⟩
  case completes =>
    refine ⟨_, (meaning ..).trans (storeFrom_ok n rs1 rs2 imm s within), fun k inside => ?bytes,
      withMem_sameMemoryOutside s _ n (s.readReg rs2), fun _ => rfl, rfl, rfl, rfl, rfl, rfl⟩
    rw [advance_mem, readByte_writeBytes_leBytes s.mem _ n k _ inside, extractLsb'_byte_toNat]
  case fails => rw [meaning, storeFrom_error n rs1 rs2 imm s past]

/-! ## The instructions -/

/-- Settles O44: each word is an S-format word (`store_encoding`), and each instruction is a store of its width
(`storesAs_of_storeFrom`). -/
theorem storeResults : Obligations.StoreResults :=
  ⟨store_encoding 0b000#3 (fun _ _ _ _ => rfl) fun _ _ _ => rfl, storesAs_of_storeFrom fun _ _ _ _ => rfl,
    store_encoding 0b001#3 (fun _ _ _ _ => rfl) fun _ _ _ => rfl, storesAs_of_storeFrom fun _ _ _ _ => rfl,
    store_encoding 0b010#3 (fun _ _ _ _ => rfl) fun _ _ _ => rfl, storesAs_of_storeFrom fun _ _ _ _ => rfl⟩

end Sys2Proof.Machine
end

section
/-! Proofs of the branch family: the equality branches (R650, R651) and the order branches (R652 to R655). -/

namespace Sys2Proof.Machine

/-! ## What a branch does -/

/-- The word of a branch: the BRANCH opcode and the funct3 of its row, and the offset where the B format holds it. -/
theorem branch_encoding {i : RegIdx → RegIdx → Word → Instr} (f3 : BitVec 3)
    (word : ∀ c rs1 rs2 imm, encode c (i rs1 rs2 imm) = encodeB imm (regBits rs2) (regBits rs1) f3 0b1100011#7)
    (range : ∀ rs1 rs2 imm, (i rs1 rs2 imm).wellFormed = fitsB imm) (rs1 rs2 : RegIdx) (imm : Word) :
    Matches (i rs1 rs2 imm) 0x0000707F (encodeI 0 0 f3 0 0b1100011#7) ∧ CarriesImmediate (i rs1 rs2 imm) .b imm := by
  refine ⟨fun c => ?mask, fun fits c => ?offset⟩
  case mask => rw [word]; exact encodeB_mask ..
  case offset => rw [word]; exact immB_encodeB_of_fits _ _ f3 _ (range rs1 rs2 imm ▸ fits)

/-- A branch that decides a condition of the two register values sets the pc by that condition, and nothing else: it is a
jump, to the target or to the next instruction (`branchIf_eq`). -/
theorem branchesOn_of_branchIf {i : RegIdx → RegIdx → Word → Instr} {condition : Word → Word → Prop}
    [DecidableRel condition]
    (meaning : ∀ rs1 rs2 imm s,
      exec (i rs1 rs2 imm) s = branchIf (decide (condition (s.readReg rs1) (s.readReg rs2))) imm s) :
    BranchesOn i condition := by
  intro s rs1 rs2 imm
  refine ⟨_, (meaning ..).trans (branchIf_eq ..), fun holds => ?taken, fun fails => ?notTaken,
    fun _ => rfl, ⟨rfl, fun _ => rfl⟩, rfl, rfl, rfl, rfl⟩
  case taken => rw [jumpTo_pc, if_pos (decide_eq_true holds)]
  case notTaken => rw [jumpTo_pc, if_neg (mt of_decide_eq_true fails)]

/-! ## The instructions -/

/-- Settles O45: each word is a B-format word (`branch_encoding`), and each branch decides whether its register values are
equal, or unequal (`branchesOn_of_branchIf`). -/
theorem equalityBranchResults : Obligations.EqualityBranchResults :=
  ⟨branch_encoding 0b000#3 (fun _ _ _ _ => rfl) fun _ _ _ => rfl, branchesOn_of_branchIf fun _ _ _ _ => rfl,
    branch_encoding 0b001#3 (fun _ _ _ _ => rfl) fun _ _ _ => rfl, branchesOn_of_branchIf fun _ _ _ _ => rfl⟩

/-- Settles O46: each word is a B-format word (`branch_encoding`), and the comparisons of R14 (`ltSigned` and its like)
decide the order of the signed, or of the unsigned, numbers (`branchesOn_of_branchIf`). -/
theorem orderBranchResults : Obligations.OrderBranchResults :=
  ⟨branch_encoding 0b100#3 (fun _ _ _ _ => rfl) fun _ _ _ => rfl, branchesOn_of_branchIf fun _ _ _ _ => rfl,
    branch_encoding 0b101#3 (fun _ _ _ _ => rfl) fun _ _ _ => rfl, branchesOn_of_branchIf fun _ _ _ _ => rfl,
    branch_encoding 0b110#3 (fun _ _ _ _ => rfl) fun _ _ _ => rfl, branchesOn_of_branchIf fun _ _ _ _ => rfl,
    branch_encoding 0b111#3 (fun _ _ _ _ => rfl) fun _ _ _ => rfl, branchesOn_of_branchIf fun _ _ _ _ => rfl⟩

end Sys2Proof.Machine
end

section
/-! Proofs of the upper-immediate family: LUI (R700) and AUIPC (R701). -/

namespace Sys2Proof.Machine

/-- Settles O47: each word is a U-format word (`encodeU_mask`, `immU_encodeU`); LUI writes the immediate itself, and the sum
AUIPC writes is that of the unsigned numbers modulo 2^32 by definition. -/
theorem upperImmediateResults : Obligations.UpperImmediateResults := by
  intro rd imm
  refine ⟨⟨fun _ => encodeU_mask .., fun fits _ => immU_encodeU _ _ _ fits, ?lui⟩,
    ⟨fun _ => encodeU_mask .., fun fits _ => immU_encodeU _ _ _ fits, ?auipc⟩⟩
  case lui => exact computesInto_of_writeResult (fun _ => rfl) fun _ => rfl
  case auipc => exact computesInto_of_writeResult (fun _ => rfl) fun s => BitVec.add_def (x := s.pc) (y := imm)

end Sys2Proof.Machine
end

section
/-! Proofs of the exceptions family: a reached fault is precise (R1021), every instruction answers a next state (R1020), and
the host is reached by ECALL alone (R1032). -/

namespace Sys2Proof.Machine

/-! ## The fault a run reaches (R1021, R1022) -/

theorem reaches_eq_of_ended {s t : State} (ended : s.status ≠ .running) (run : Reaches s t) : t = s := by
  cases run with
  | refl => rfl
  | step first => cases (step_ended s ended).symm.trans first

/-- A run from a running state to a faulted one ends with the step that fails, from a state that is still running: the
induction is on the run, and its last step is the first whose outcome is no longer running. -/
theorem reaches_faulted_last_step {s t : State} {e : ErrorKind} (run : Reaches s t) (running : s.status = .running)
    (faulted : t.status = .faulted e) : ∃ u, Reaches s u ∧ u.status = .running ∧ step u = .next t := by
  induction run with
  | refl s => cases running.symm.trans faulted
  | @step s m t first rest ih =>
    by_cases still : m.status = .running
    · obtain ⟨u, reached, u_running, last⟩ := ih still faulted
      exact ⟨u, .step first reached, u_running, last⟩
    · cases reaches_eq_of_ended still rest
      exact ⟨s, .refl s, running, first⟩

/-- Settles O27: the run's last step is the one that fails (`reaches_faulted_last_step`), and a failed step changes the
status alone (`failedStepChangesOnlyStatus`). -/
theorem reachedFaultsArePrecise : Obligations.ReachedFaultsArePrecise := by
  intro s t e running run faulted
  obtain ⟨u, reached, u_running, last⟩ := reaches_faulted_last_step run running faulted
  exact ⟨u, reached, u_running, last, failedStepChangesOnlyStatus u t e last faulted⟩

/-! ## A next state from every state (R1020) -/

theorem Ending.answers_next {i : Instr} {s : State} {r : Result} (ending : Ending s i r) : ∃ t, r = .next t := by
  cases ending <;> exact ⟨_, rfl⟩

theorem exec_answers_next (i : Instr) (s : State) : ∃ t, exec i s = .next t := (exec_ending s i).answers_next

theorem execute_decode_answers_next (c : Config) (w : Word) (s : State) : ∃ t, execute (decode c w) s = .next t := by
  rcases execute_decode_cases c w s with ⟨i, -, h⟩ | h <;> rw [h]
  · exact exec_answers_next i s
  · exact ⟨_, rfl⟩

/-- Settles O31: each of the three endings of an instruction (`exec_ending`) is a next state; a step is a failed fetch, or
what follows the dispatch of a decoded word. -/
theorem everyInstructionAnswersNext : Obligations.EveryInstructionAnswersNext := by
  refine ⟨exec_answers_next, fun s running => ?_⟩
  rcases step_cases s running with ⟨e, -, h⟩ | ⟨w, -, h⟩ <;> rw [h]
  · exact ⟨_, rfl⟩
  · obtain ⟨t, dispatched⟩ := execute_decode_answers_next s.cfg w s
    rw [dispatched, afterDispatch_next]
    exact ⟨_, rfl⟩

/-! ## What reaches the host (R1032) -/

/-- An instruction other than ECALL keeps the trace and the oracle. -/
theorem exec_host_unchanged {i : Instr} {s t : State} (h : exec i s = .next t) (other : i ≠ .ecall) :
    t.trace = s.trace ∧ t.oracle = s.oracle := by
  rcases exec_cases i s with ⟨e, h'⟩ | ⟨-, rd, v, a, -, h'⟩ | ⟨a, h'⟩ | ⟨-, a, bs, -, h'⟩ | ⟨call, -⟩
  case inr.inr.inr.inr => exact absurd call other
  all_goals cases h'.symm.trans h
  · exact ⟨rfl, rfl⟩
  · exact ⟨writeReg_trace s rd v, writeReg_oracle s rd v⟩
  · exact ⟨rfl, rfl⟩
  · exact ⟨rfl, rfl⟩

/-- An instruction other than ECALL goes on or fails. -/
theorem exec_status_cases {i : Instr} {s t : State} (h : exec i s = .next t) (other : i ≠ .ecall) :
    t.status = s.status ∨ ∃ e, t.status = .faulted e := by
  have ending : Ending s i (.next t) := h ▸ exec_ending s i
  cases ending with
  | goesOn status => exact .inl status
  | @fails e _ => exact .inr ⟨e, rfl⟩
  | exits call => exact absurd call other

/-- Settles O34: the parameters are kept along every instruction (`exec_continues`); the rest is the trace, the oracle
(`exec_host_unchanged`) and the status (`exec_status_cases`) after an instruction other than ECALL. -/
theorem onlyEcallReachesTheHost : Obligations.OnlyEcallReachesTheHost := by
  refine fun i s t h => ⟨(exec_continues i s t h).cfg, fun other => ?_⟩
  obtain ⟨trace, oracle⟩ := exec_host_unchanged h other
  exact ⟨trace, oracle, exec_status_cases h other⟩

end Sys2Proof.Machine
end

section
/-! Proofs of the jump family (R750, R751) and the fence family (R800, R801). -/

namespace Sys2Proof.Machine

/-! ## Jumps -/

/-- Everything an instruction that links and jumps does. -/
theorem completes_of_linkAndJump {i : Instr} {rd : RegIdx} {target : Word} {s : State}
    (meaning : exec i s = linkAndJump rd target s) :
    Completes i s (fun t => RegsAfterWrite rd (s.pc + 4) s t ∧ t.pc = target ∧ SameMemory s t ∧ SameRest s t) :=
  ⟨_, meaning, writeReg_regsAfterWrite s rd _, rfl, writeReg_sameMemory s rd _, writeReg_sameRest s rd _⟩

/-- Settles O48: the word is a J-format word (`encodeJ_mask`, `immJ_encodeJ_of_fits`), and JAL links and jumps to the target
R750 writes out. -/
theorem jalResult : Obligations.JalResult := fun _ rd _ =>
  ⟨fun _ => encodeJ_mask .., fun fits _ => immJ_encodeJ_of_fits (regBits rd) _ fits, completes_of_linkAndJump rfl⟩

/-- Clearing bit 0 rounds down to an even number: it shifts bit 0 out and a 0 in. -/
theorem clearBit0_toNat (v : Word) : (clearBit0 v).toNat = v.toNat / 2 * 2 := by
  have mask : BitVec.allOnes 32 <<< 1 = 0xFFFFFFFE#32 := by decide
  rw [clearBit0, ← mask, ← BitVec.shiftLeft_ushiftRight, BitVec.toNat_shiftLeft, BitVec.toNat_ushiftRight,
    Nat.shiftLeft_eq, Nat.shiftRight_eq_div_pow]
  omega

/-- Settles O49: the word is an I-format word (`encodeImm_mask`, `immI_encodeImm`), and JALR links and jumps to the sum with
bit 0 cleared, which is the even number below (`clearBit0_toNat`). -/
theorem jalrResult : Obligations.JalrResult := by
  refine fun s rd rs1 imm => ⟨fun _ => encodeImm_mask .., fun fits _ => immI_encodeImm _ _ rd rs1 fits, ?completes⟩
  case completes =>
    obtain ⟨t, meaning, link, pc, frame⟩ := completes_of_linkAndJump (i := .jalr rd rs1 imm) (s := s) rfl
    exact ⟨t, meaning, link, by rw [pc, clearBit0_toNat], frame⟩

/-! ## Fences -/

/-- Under legal parameters an instruction that has a word has one word alone (R351). -/
theorem decodeInstr_eq_some_iff {c : Config} (legal : c.wf) {i : Instr} (wf : i.wellFormed = true) (w : Word) :
    decodeInstr c w = some i ↔ w = encode c i := by
  refine ⟨fun decoded => (encode_of_decodeInstr decoded).symm, fun word => ?_⟩
  rw [word, decodeInstr_encode legal i wf]

/-- Settles O50: each fence's one word (`decodeInstr_eq_some_iff`) is its parameter, and its meaning is the advance. -/
theorem fencesOnlyAdvance : Obligations.FencesOnlyAdvance :=
  ⟨fun _ w legal =>
      ⟨decodeInstr_eq_some_iff legal (i := .fence) rfl w, decodeInstr_eq_some_iff legal (i := .fenceI) rfl w⟩,
    rfl, rfl, onlyAdvances_of_complete fun _ => rfl, onlyAdvances_of_complete fun _ => rfl⟩

end Sys2Proof.Machine
end

section
/-! Proofs of the system family: EBREAK and the CSR instructions (R899 to R906), the string search (R866), and the system
calls (R860 to R868). -/

namespace Sys2Proof.Machine

/-! ## EBREAK and the CSR instructions -/

theorem encodeCsr_mask (f3 : BitVec 3) (rd : RegIdx) (mid : BitVec 5) (csr : BitVec 12) :
    encodeCsr f3 rd mid csr &&& 0x0000707F#32 = encodeI 0 0 f3 0 0b1110011#7 :=
  encodeI_mask ..

/-- A CSR instruction has the word of its funct3 and no meaning but the advance. -/
theorem csr_onlyAdvances {i : Instr} {rd : RegIdx} {mid : BitVec 5} {csr : BitVec 12} (f3 : BitVec 3)
    (word : ∀ c, encode c i = encodeCsr f3 rd mid csr) (meaning : ∀ s, exec i s = csrNoOp s) :
    Matches i 0x0000707F (encodeI 0 0 f3 0 0b1110011#7) ∧ OnlyAdvances i :=
  ⟨fun c => by rw [word]; exact encodeCsr_mask f3 rd mid csr, onlyAdvances_of_complete meaning⟩

/-- Settles O51: EBREAK is one fixed word, and each CSR instruction is the word of its row (`csr_onlyAdvances`). -/
theorem ebreakAndCsrOnlyAdvance : Obligations.EbreakAndCsrOnlyAdvance := by
  refine ⟨⟨fun _ => (by decide : 0x00100073#32 &&& 0xFFFFFFFF#32 = 0x00100073#32), onlyAdvances_of_complete fun _ => rfl⟩,
    fun rd rs1 csr => ⟨?w, ?s, ?c⟩, fun rd uimm csr => ⟨?wi, ?si, ?ci⟩⟩
  case w => exact csr_onlyAdvances 0b001#3 (fun _ => rfl) fun _ => rfl
  case s => exact csr_onlyAdvances 0b010#3 (fun _ => rfl) fun _ => rfl
  case c => exact csr_onlyAdvances 0b011#3 (fun _ => rfl) fun _ => rfl
  case wi => exact csr_onlyAdvances 0b101#3 (fun _ => rfl) fun _ => rfl
  case si => exact csr_onlyAdvances 0b110#3 (fun _ => rfl) fun _ => rfl
  case ci => exact csr_onlyAdvances 0b111#3 (fun _ => rfl) fun _ => rfl

/-! ## The string search (R866) -/

section
variable (m : Memory) (a n : Nat)

/-- The search meets the NUL at its first address, or goes on from the next one. -/
theorem stringAt_succ_of_nul (nul : m.readByte a = 0) : m.stringAt a (n + 1) = some [] := by
  rw [Memory.stringAt, if_pos nul]

theorem stringAt_succ_of_ne_nul (other : m.readByte a ≠ 0) :
    m.stringAt a (n + 1) = (m.stringAt (a + 1) n).map (m.readByte a :: ·) := by
  rw [Memory.stringAt, if_neg other]

/-- The bytes from an address up are the byte there and those from the next address up. -/
theorem forall_lt_succ_readByte (p : Byte → Prop) :
    (∀ k, k < n + 1 → p (m.readByte (a + k))) ↔ p (m.readByte a) ∧ ∀ k, k < n → p (m.readByte (a + 1 + k)) := by
  rw [Nat.forall_lt_succ_left]
  simp only [Nat.add_zero, Nat.add_assoc, Nat.add_comm 1]

theorem stringAt_eq_none_iff : m.stringAt a n = none ↔ ∀ k : Nat, k < n → m.readByte (a + k) ≠ 0 := by
  induction n generalizing a with
  | zero => simp [Memory.stringAt]
  | succ n ih =>
    rw [forall_lt_succ_readByte m a n (· ≠ 0)]
    by_cases nul : m.readByte a = 0
    · simp [stringAt_succ_of_nul m a n nul, nul]
    · rw [stringAt_succ_of_ne_nul m a n nul, Option.map_eq_none_iff, ih]
      exact (and_iff_right nul).symm

theorem stringAt_some {bs : List Byte} (found : m.stringAt a n = some bs) :
    bs.length < n ∧ m.readByte (a + bs.length) = 0 ∧
      ∀ k : Nat, k < bs.length → bs[k]? = some (m.readByte (a + k)) ∧ m.readByte (a + k) ≠ 0 := by
  induction n generalizing a bs with
  | zero => cases found
  | succ n ih =>
    by_cases nul : m.readByte a = 0
    · cases (stringAt_succ_of_nul m a n nul).symm.trans found
      exact ⟨Nat.succ_pos n, nul, nofun⟩
    · rw [stringAt_succ_of_ne_nul m a n nul, Option.map_eq_some_iff] at found
      obtain ⟨tail, later, rfl⟩ := found
      obtain ⟨short, ends, content⟩ := ih (a + 1) later
      rw [List.length_cons]
      refine ⟨by omega, by rwa [Nat.add_comm tail.length, ← Nat.add_assoc], fun k inside => ?_⟩
      cases k with
      | zero => exact ⟨rfl, nul⟩
      | succ k =>
        rw [List.getElem?_cons_succ, Nat.add_comm k, ← Nat.add_assoc]
        exact content k (by omega)

end

/-- Settles O13: by induction on the number of bytes searched, for the bytes found (`stringAt_some`) and for none
(`stringAt_eq_none_iff`). -/
theorem stringEndsAtFirstNul : Obligations.StringEndsAtFirstNul := fun m a n =>
  ⟨fun _ => stringAt_some m a n, stringAt_eq_none_iff m a n⟩

/-- The search finds the bytes before a NUL that no NUL precedes: what it finds ends at a NUL that none precedes, and there
is one such place. -/
theorem stringAt_of_first_nul {m : Memory} {a n len : Nat} (inside : len < n) (nul : m.readByte (a + len) = 0)
    (first : ∀ k : Nat, k < len → m.readByte (a + k) ≠ 0) :
    ∃ bs, m.stringAt a n = some bs ∧ bs.length = len ∧ ∀ k : Nat, k < len → bs[k]? = some (m.readByte (a + k)) := by
  cases found : m.stringAt a n with
  | none => exact absurd nul ((stringAt_eq_none_iff m a n).mp found len inside)
  | some bs =>
    obtain ⟨-, ends, content⟩ := stringAt_some m a n found
    have same : bs.length = len := by
      rcases Nat.lt_trichotomy bs.length len with before | same | after
      · exact absurd ends (first _ before)
      · exact same
      · exact absurd nul (content len after).2
    exact ⟨bs, rfl, same, fun k hk => (content k (same ▸ hk)).1⟩

/-! ## The selector (R852) -/

/-- The selector of a system call, the table of R852 read from the call. -/
def selectorOf (c : Config) : Syscall → Word
  | .sbrk => c.sysSbrk
  | .readWord => c.sysReadWord
  | .readString => c.sysReadString
  | .writeWord => c.sysWriteWord
  | .writeString => c.sysWriteString
  | .writeWordErr => c.sysWriteWordErr
  | .writeStringErr => c.sysWriteStringErr
  | .exit => c.sysExit

theorem syscallOf_selectorOf {c : Config} (legal : c.wf) (k : Syscall) : syscallOf c (selectorOf c k) = some k := by
  obtain ⟨sbrk, readWord, readString, writeWord, writeString, writeWordErr, writeStringErr, exit⟩ :=
    syscallOf_selectors c legal
  cases k <;> assumption

theorem exec_ecall_of_syscallOf {s : State} {k : Syscall} (call : syscallOf s.cfg (s.readReg regA7) = some k) :
    exec .ecall s = performSyscall k s := by
  simp only [exec, execEcall, call]

/-- ECALL performs the call whose selector x17 holds. -/
theorem exec_ecall_of_selector {s : State} (legal : s.cfg.wf) (k : Syscall)
    (selected : s.readReg regA7 = selectorOf s.cfg k) :
    exec .ecall s = performSyscall k s :=
  exec_ecall_of_syscallOf (selected ▸ syscallOf_selectorOf legal k)

/-- Settles O59: a word that is no selector names no call (`syscallOf_eq_none`). -/
theorem ecallUnrecognizedSelector : Obligations.EcallUnrecognizedSelector := by
  intro s unknown
  have none_named : syscallOf s.cfg (s.readReg regA7) = none := (syscallOf_eq_none s.cfg _).mpr unknown
  simp only [exec, execEcall, none_named]
  rfl

/-- Settles O58: the exit call sets the status, and nothing follows it. -/
theorem ecallExit : Obligations.EcallExit := fun _ legal selected => exec_ecall_of_selector legal .exit selected

/-! ## sbrk (R860) -/

theorem regsAfterWrite_self (s : State) (r : RegIdx) : RegsAfterWrite r (s.readReg r) s s :=
  ⟨fun _ => rfl, readReg_zero s, fun _ _ => rfl⟩

/-- Settles O52: `sbrkCall_eq` splits on a0; where a0 is not 0, the advance leaves it its own value. Sbrk is looked up
first, so the parameters need not be legal. -/
theorem ecallSbrk : Obligations.EcallSbrk := by
  intro s selected
  have named : syscallOf s.cfg (s.readReg regA7) = some .sbrk := if_pos selected
  have meaning := (exec_ecall_of_syscallOf named).trans (sbrkCall_eq s)
  by_cases query : s.readReg 10 = 0
  · rw [if_pos query]
    exact completes_of_writeResult (meaning.trans (if_pos query))
  · rw [if_neg query]
    exact ⟨_, meaning.trans (if_neg query), regsAfterWrite_self s 10, rfl, ⟨rfl, fun _ => rfl⟩, rfl, rfl, rfl, rfl⟩

/-! ## read word (R861) -/

theorem readWordCall_of_ok {s : State} {v : Word} (answer : s.oracle.askWord.1 = .ok v) :
    readWordCall s = writeResult regA0 v { s with oracle := s.oracle.askWord.2 } := by
  rcases readWordCall_cases s with ⟨v', o, asked, h⟩ | ⟨o, asked, -⟩ <;> rw [asked] at answer <;> cases answer
  rw [h, asked]

theorem readWordCall_of_fail {s : State} (answer : s.oracle.askWord.1 = .fail) :
    readWordCall s = .next (FaultedFrom s .inputError) := by
  rcases readWordCall_cases s with ⟨v, o, asked, -⟩ | ⟨o, asked, h⟩ <;> rw [asked] at answer <;> cases answer
  exact h

/-- Everything an instruction does that writes a value to rd once the oracle has answered. -/
theorem completes_of_writeResult_withOracle {i : Instr} {rd : RegIdx} {v : Word} {o : Oracle} {s : State}
    (meaning : exec i s = writeResult rd v { s with oracle := o }) :
    Completes i s (fun t => RegsAfterWrite rd v s t ∧ t.pc = s.pc + 4 ∧ SameMemory s t ∧ t.cfg = s.cfg ∧
      t.status = s.status ∧ t.trace = s.trace ∧ t.oracle = o) := by
  obtain ⟨cfg, status, trace, oracle⟩ := writeReg_sameRest { s with oracle := o } rd v
  exact ⟨_, meaning, writeReg_regsAfterWrite { s with oracle := o } rd v,
    writeResult_pc (s := { s with oracle := o }) (rd := rd) (v := v) rfl, writeReg_sameMemory { s with oracle := o } rd v,
    cfg, status, trace, oracle⟩

/-- Settles O53: the call is a write of a0 after the oracle's answer (`readWordCall_of_ok`), or the error
(`readWordCall_of_fail`). -/
theorem ecallReadWord : Obligations.EcallReadWord := by
  intro s legal selected
  have meaning : exec .ecall s = readWordCall s := exec_ecall_of_selector legal .readWord selected
  refine ⟨fun v answer => ?answered, fun failed => meaning.trans (readWordCall_of_fail failed)⟩
  case answered =>
    exact completes_of_writeResult_withOracle (meaning.trans (readWordCall_of_ok answer))

/-! ## read string (R864) -/

theorem rawPointer_of_past {s : State} {addr : Word} (past : s.mem.size ≤ addr.toNat) :
    s.rawPointer addr = .error (.addressOutOfBounds addr 1) :=
  (rawPointer_error_iff s addr _).mpr ⟨past, rfl⟩

theorem rawPointer_of_inside {s : State} {addr : Word} (inside : addr.toNat < s.mem.size) :
    s.rawPointer addr = .ok addr.toNat :=
  (rawPointer_ok_iff s addr _).mpr ⟨inside, rfl⟩

theorem boundLine_length {max : Nat} {answer : Answer (List Byte)} {bs : List Byte}
    (line : boundLine max answer = .ok bs) : bs.length ≤ max := by
  cases answer with
  | fail => cases line
  | ok whole => cases line; exact List.length_take_le max whole

/-- The oracle's line, listed or free, is cut to the bound (R872). -/
theorem askLine_length {o : Oracle} {max : Nat} {bs : List Byte} (answer : (o.askLine max).1 = .ok bs) :
    bs.length ≤ max := by
  unfold Oracle.askLine at answer
  split at answer <;> exact boundLine_length answer

section
variable {s : State}

theorem readStringCall_of_past (past : s.mem.size ≤ (s.readReg regA0).toNat) :
    readStringCall s = .next (FaultedFrom s (.addressOutOfBounds (s.readReg regA0) 1)) := by
  simp only [readStringCall, rawPointer_of_past past]
  rfl

variable (inside : (s.readReg regA0).toNat < s.mem.size)
include inside

theorem readStringCall_of_fail (answer : (s.oracle.askLine s.cfg.readStrMax).1 = .fail) :
    readStringCall s = .next (FaultedFrom s .inputError) := by
  have asked : s.oracle.askLine s.cfg.readStrMax = (.fail, (s.oracle.askLine s.cfg.readStrMax).2) :=
    Prod.ext answer rfl
  simp only [readStringCall, rawPointer_of_inside inside]
  rw [asked]
  rfl

theorem readStringCall_of_line {bs : List Byte} (answer : (s.oracle.askLine s.cfg.readStrMax).1 = .ok bs) :
    readStringCall s = storeLine (s.readReg regA0).toNat bs (s.oracle.askLine s.cfg.readStrMax).2 s := by
  have asked : s.oracle.askLine s.cfg.readStrMax = (.ok bs, (s.oracle.askLine s.cfg.readStrMax).2) :=
    Prod.ext answer rfl
  simp only [readStringCall, rawPointer_of_inside inside]
  rw [asked]

end

/-- Settles O55: the pointer's check comes before the oracle (`readStringCall_of_past`), the stream's failure before the
line's length (`readStringCall_of_fail`), and the length before any byte is written. -/
theorem ecallReadStringErrors : Obligations.EcallReadStringErrors := by
  intro s legal selected
  have meaning : exec .ecall s = readStringCall s := exec_ecall_of_selector legal .readString selected
  refine ⟨fun past => ?pointer, fun inside => ⟨fun failed => ?stream, fun bs answer long => ?line⟩⟩
  case pointer => exact meaning.trans (readStringCall_of_past past)
  case stream => exact meaning.trans (readStringCall_of_fail inside failed)
  case line => exact meaning.trans ((readStringCall_of_line inside answer).trans (if_pos long))

theorem writeBytes_sameMemoryOutside (s : State) (a : Nat) (bs : List Byte) :
    SameMemoryOutside a bs.length s { s with mem := s.mem.writeBytes a bs } :=
  ⟨writeBytes_size s.mem a bs, fun b outside => by rw [readByte_writeBytes, if_neg (by omega)]⟩

theorem readByte_writeBytes_getElem? (m : Memory) (a : Nat) {bs : List Byte} {k : Nat} (inside : k < bs.length) :
    bs[k]? = some ((m.writeBytes a bs).readByte (a + k)) := by
  rw [readByte_writeBytes, if_pos ⟨by omega, by omega⟩, Nat.add_sub_cancel_left, List.getD_eq_getElem _ _ inside,
    List.getElem?_eq_getElem inside]

/-- Settles O54: the line is no longer than the bound (`askLine_length`), and one that fits is written at a0 and up
(`readByte_writeBytes_getElem?`, `writeBytes_sameMemoryOutside`). -/
theorem ecallReadStringWrites : Obligations.EcallReadStringWrites := by
  intro s bs legal selected inside answer fits
  have meaning : exec .ecall s = readStringCall s := exec_ecall_of_selector legal .readString selected
  have stored := (readStringCall_of_line inside answer).trans (if_neg (Nat.not_lt.mpr fits))
  exact ⟨askLine_length answer, _, meaning.trans stored, fun k hk => readByte_writeBytes_getElem? s.mem _ hk,
    writeBytes_sameMemoryOutside s _ bs, fun _ => rfl, rfl, rfl, rfl, rfl, rfl⟩

/-! ## write word and write string (R862, R863, R866, R867) -/

/-- Settles O56: the call of each stream is one event and the advance. -/
theorem ecallWriteWord : Obligations.EcallWriteWord := by
  intro s stream legal selected
  have meaning : exec .ecall s = writeWordCall stream s := by
    cases stream with
    | stdout => exact exec_ecall_of_selector legal .writeWord selected
    | stderr => exact exec_ecall_of_selector legal .writeWordErr selected
  exact ⟨_, meaning, rfl, fun _ => rfl, ⟨rfl, fun _ => rfl⟩, rfl, rfl, rfl, rfl⟩

section
variable (stream : Stream) {s : State}

theorem writeStringCall_of_past (past : s.mem.size ≤ (s.readReg regA0).toNat) :
    writeStringCall stream s = .next (FaultedFrom s (.addressOutOfBounds (s.readReg regA0) 1)) := by
  simp only [writeStringCall, rawPointer_of_past past]
  rfl

variable (inside : (s.readReg regA0).toNat < s.mem.size)
include inside

theorem writeStringCall_of_none
    (unterminated : s.mem.stringAt (s.readReg regA0).toNat (s.mem.size - (s.readReg regA0).toNat) = none) :
    writeStringCall stream s = .next (FaultedFrom s (.unterminatedString (s.readReg regA0))) := by
  simp only [writeStringCall, rawPointer_of_inside inside, unterminated]
  rfl

theorem writeStringCall_of_some {bs : List Byte}
    (found : s.mem.stringAt (s.readReg regA0).toNat (s.mem.size - (s.readReg regA0).toNat) = some bs) :
    writeStringCall stream s = complete (s.emit stream (.bytes bs)) := by
  simp only [writeStringCall, rawPointer_of_inside inside, found]

end

/-- Settles O57: the search reaches to the end of memory; it finds the bytes before the first NUL
(`stringAt_of_first_nul`), or none where there is no NUL (`stringAt_eq_none_iff`). -/
theorem ecallWriteString : Obligations.EcallWriteString := by
  intro s stream legal selected
  have meaning : exec .ecall s = writeStringCall stream s := by
    cases stream with
    | stdout => exact exec_ecall_of_selector legal .writeString selected
    | stderr => exact exec_ecall_of_selector legal .writeStringErr selected
  refine ⟨fun n ends nul first => ?string, fun past => ?pointer, fun inside noNul => ?unterminated⟩
  case string =>
    have inside := Nat.lt_of_le_of_lt (Nat.le_add_right _ n) ends
    obtain ⟨bs, found, length, content⟩ := stringAt_of_first_nul (Nat.lt_sub_iff_add_lt'.mpr ends) nul first
    exact ⟨_, meaning.trans (writeStringCall_of_some stream inside found), ⟨bs, rfl, length, content⟩, fun _ => rfl,
      ⟨rfl, fun _ => rfl⟩, rfl, rfl, rfl, rfl⟩
  case pointer => exact meaning.trans (writeStringCall_of_past stream past)
  case unterminated =>
    have searched := (stringAt_eq_none_iff s.mem (s.readReg 10).toNat (s.mem.size - (s.readReg 10).toNat)).mpr
      fun k hk => noNul k (by omega)
    exact meaning.trans (writeStringCall_of_none stream inside searched)

end Sys2Proof.Machine
end

section
/-! Proof of the reset family: construction (R1100). -/

namespace Sys2Proof.Machine

section
variable (c : Config) (buf : Memory) (pc0 sp0 : Option Word) (o : Oracle)

theorem construct_stored_zero : (construct c buf pc0 sp0 o).regs[0] = 0 := by
  simp [construct]

theorem construct_readReg_sp : (construct c buf pc0 sp0 o).readReg 2 = sp0.getD c.stackTop := by
  simp [State.readReg, construct]

theorem construct_readReg_other {i : RegIdx} (nonzero : i ≠ 0) (notSp : i ≠ 2) :
    (construct c buf pc0 sp0 o).readReg i = c.initRegs[i] := by
  have nonzero_val : ¬ 0 = i.val := fun e => nonzero (Fin.ext e.symm)
  have notSp_val : ¬ 2 = i.val := fun e => notSp (Fin.ext e.symm)
  simp [State.readReg, construct, nonzero, nonzero_val, notSp_val]

end

/-- Settles O17: the memory is the image (`imageIsMemoryVerbatim`), and the register file is `INIT_REGS` with entries 0 and
2 replaced. -/
theorem constructionState : Obligations.ConstructionState := by
  intro c image pc0 sp0 o
  obtain ⟨size, bytes, -⟩ := imageIsMemoryVerbatim image
  exact ⟨size, bytes, readReg_zero _, construct_stored_zero c _ pc0 sp0 o,
    construct_readReg_sp c _ pc0 sp0 o, fun i => construct_readReg_other c _ pc0 sp0 o, rfl, rfl, rfl, rfl⟩

end Sys2Proof.Machine
end
